-- ==== Sys2Proof/Word.lean ====
section
/-! DEFINITION. Words of the block: the byte every port, frame and buffer cell carries (spec 00_scope.md R9, R11).
Every wider value is a field of a frame and gets its width where it is assembled (Machine/Operands.lean). -/
namespace Sys2Proof

/-- A byte: an 8-bit unsigned value, bit 0 least significant (R11). -/
abbrev Byte := BitVec 8

end Sys2Proof
end

