-- ==== Sys2Proof/Syntax.lean ====
section
/-! DEFINITION. The instruction syntax: one constructor per row of spec/opcode_table.json. The 26 commands carry
the operands of 40_command_encoder.md R109-R141 in the order of 30_encoding.md R88: INTEGERS for every numeric parameter
(R102: nothing is rejected, every integer is reduced to its field's width) and booleans for every flag (R103).
`posReply f` is the Position Decoder's DECODE applied to the byte list f (42_position_decoder.md R198). The eight
port-selected rows have no operand of their own: their operands are the receiver's ports and registers (R160). -/
namespace Sys2Proof

/-- The operations of the block (30_encoding.md R80, 41_frame_receiver.md R160, 42_position_decoder.md R198). -/
inductive Instr where
  | rdparam1F (a : Int)
  | rdparam20 (a : Int)
  | rdparam21 (a : Int)
  | rdparam24 (a : Int)
  | rdparam27 (a : Int)
  | rdparam31 (a : Int)
  | rdparam33 (a : Int)
  | rdparam35 (a : Int)
  | rdparam36 (a : Int)
  | rdparam37 (a : Int)
  | rdparam3A (a : Int)
  | rdparam3B (a : Int)
  | rdparam42 (a : Int)
  | rdparam43 (a : Int)
  | zeroPos (a : Int)
  | clrStall (a : Int)
  | setCtrlMode (a : Int) (save : Bool) (mode : Int)
  | enable (a : Int) (en sync : Bool)
  | vel (a dir velocity acc : Int) (sync : Bool)
  | pos (a dir velocity acc pulses : Int) (rel sync : Bool)
  | stop (a : Int) (sync : Bool)
  | syncRun (a : Int)
  | setHomeZero (a : Int) (save : Bool)
  | homeCfg (a : Int) (save : Bool) (mode dir hvel htmo svel scur stime : Int) (auto : Bool)
  | home (a mode : Int) (sync : Bool)
  | homeAbort (a : Int)
  | posReply (f : List Byte)
  | reset
  | rxStart
  | rxHold
  | rxClockFault
  | rxConsume
  | rxDrop
  | rxComplete
  | rxWait
deriving DecidableEq, Repr, Inhabited

/-- The pseudo-instruction RDPOS a=N: another name of RDPARAM_36 a=N (30_encoding.md R89). -/
def Instr.rdpos (a : Int) : Instr := .rdparam36 a

/-- The row's mnemonic in spec/opcode_table.json (30_encoding.md R80). -/
def Instr.mnemonic : Instr → String
  | .rdparam1F _ => "RDPARAM_1F"
  | .rdparam20 _ => "RDPARAM_20"
  | .rdparam21 _ => "RDPARAM_21"
  | .rdparam24 _ => "RDPARAM_24"
  | .rdparam27 _ => "RDPARAM_27"
  | .rdparam31 _ => "RDPARAM_31"
  | .rdparam33 _ => "RDPARAM_33"
  | .rdparam35 _ => "RDPARAM_35"
  | .rdparam36 _ => "RDPARAM_36"
  | .rdparam37 _ => "RDPARAM_37"
  | .rdparam3A _ => "RDPARAM_3A"
  | .rdparam3B _ => "RDPARAM_3B"
  | .rdparam42 _ => "RDPARAM_42"
  | .rdparam43 _ => "RDPARAM_43"
  | .zeroPos _ => "ZERO_POS"
  | .clrStall _ => "CLR_STALL"
  | .setCtrlMode _ _ _ => "SET_CTRL_MODE"
  | .enable _ _ _ => "ENABLE"
  | .vel _ _ _ _ _ => "VEL"
  | .pos _ _ _ _ _ _ _ => "POS"
  | .stop _ _ => "STOP"
  | .syncRun _ => "SYNC_RUN"
  | .setHomeZero _ _ => "SET_HOME_ZERO"
  | .homeCfg _ _ _ _ _ _ _ _ _ _ => "HOME_CFG"
  | .home _ _ _ => "HOME"
  | .homeAbort _ => "HOME_ABORT"
  | .posReply _ => "POS_REPLY"
  | .reset => "RESET"
  | .rxStart => "RX_START"
  | .rxHold => "RX_HOLD"
  | .rxClockFault => "RX_CLOCK_FAULT"
  | .rxConsume => "RX_CONSUME"
  | .rxDrop => "RX_DROP"
  | .rxComplete => "RX_COMPLETE"
  | .rxWait => "RX_WAIT"

/-- The 26 commands, the values the port `ce_op` can take (10_state.md R21, 30_encoding.md R84). -/
def Instr.isCommand : Instr → Bool
  | .posReply _ | .reset | .rxStart | .rxHold | .rxClockFault | .rxConsume | .rxDrop | .rxComplete | .rxWait => false
  | .rdparam1F _ | .rdparam20 _ | .rdparam21 _ | .rdparam24 _ | .rdparam27 _ | .rdparam31 _ | .rdparam33 _
  | .rdparam35 _ | .rdparam36 _ | .rdparam37 _ | .rdparam3A _ | .rdparam3B _ | .rdparam42 _ | .rdparam43 _
  | .zeroPos _ | .clrStall _ | .setCtrlMode _ _ _ | .enable _ _ _ | .vel _ _ _ _ _ | .pos _ _ _ _ _ _ _
  | .stop _ _ | .syncRun _ | .setHomeZero _ _ | .homeCfg _ _ _ _ _ _ _ _ _ _ | .home _ _ _ | .homeAbort _ => true

/-- The port `ce_addr` of a command (10_state.md R21); none for the operations that are no command. -/
def Instr.address : Instr → Option Int
  | .rdparam1F a | .rdparam20 a | .rdparam21 a | .rdparam24 a | .rdparam27 a | .rdparam31 a | .rdparam33 a
  | .rdparam35 a | .rdparam36 a | .rdparam37 a | .rdparam3A a | .rdparam3B a | .rdparam42 a | .rdparam43 a
  | .zeroPos a | .clrStall a | .setCtrlMode a _ _ | .enable a _ _ | .vel a _ _ _ _ | .pos a _ _ _ _ _ _
  | .stop a _ | .syncRun a | .setHomeZero a _ | .homeCfg a _ _ _ _ _ _ _ _ _ | .home a _ _ | .homeAbort a => some a
  | .posReply _ | .reset | .rxStart | .rxHold | .rxClockFault | .rxConsume | .rxDrop | .rxComplete | .rxWait => none

/-- A boolean of the command line: 0 or 1 (30_encoding.md R88). -/
def Instr.bit (b : Bool) : Int := if b then 1 else 0

/-- The key=value pairs of a command, in frame order, booleans as 0 or 1 (30_encoding.md R88). -/
def Instr.args : Instr → List (String × Int)
  | .rdparam1F a | .rdparam20 a | .rdparam21 a | .rdparam24 a | .rdparam27 a | .rdparam31 a | .rdparam33 a
  | .rdparam35 a | .rdparam36 a | .rdparam37 a | .rdparam3A a | .rdparam3B a | .rdparam42 a | .rdparam43 a
  | .zeroPos a | .clrStall a | .syncRun a | .homeAbort a => [("a", a)]
  | .setCtrlMode a save mode => [("a", a), ("save", Instr.bit save), ("mode", mode)]
  | .enable a en sync => [("a", a), ("en", Instr.bit en), ("sync", Instr.bit sync)]
  | .vel a dir velocity acc sync =>
      [("a", a), ("dir", dir), ("vel", velocity), ("acc", acc), ("sync", Instr.bit sync)]
  | .pos a dir velocity acc pulses rel sync =>
      [("a", a), ("dir", dir), ("vel", velocity), ("acc", acc), ("pulses", pulses), ("rel", Instr.bit rel),
       ("sync", Instr.bit sync)]
  | .stop a sync => [("a", a), ("sync", Instr.bit sync)]
  | .setHomeZero a save => [("a", a), ("save", Instr.bit save)]
  | .homeCfg a save mode dir hvel htmo svel scur stime auto =>
      [("a", a), ("save", Instr.bit save), ("mode", mode), ("dir", dir), ("hvel", hvel), ("htmo", htmo),
       ("svel", svel), ("scur", scur), ("stime", stime), ("auto", Instr.bit auto)]
  | .home a mode sync => [("a", a), ("mode", mode), ("sync", Instr.bit sync)]
  | .posReply _ | .reset | .rxStart | .rxHold | .rxClockFault | .rxConsume | .rxDrop | .rxComplete | .rxWait => []

end Sys2Proof
end

