-- ==== Sys2Proof/Config.lean ====
section
/-! DEFINITION. Configuration: the parameters of a model instance (00_scope.md R8), the constants of the protocol
(R9), what the environment can do to the block in one step (10_state.md R20-R23, 60_exceptions.md R225), and the free
values: constants without a body, so that nothing can be proved about what they are. -/
namespace Sys2Proof

/-- The implementation parameters of R8. They are fixed for the lifetime of a model instance: State carries them and no
step writes them. -/
structure Params where
  /-- `QUIET_MS`, the quiescence threshold in milliseconds; any natural number. -/
  quietMs : Nat
  /-- `RX_CAP`, the receive buffer's capacity in bytes; at least 1. -/
  rxCap : Nat
  /-- `EXPECTED_ADDR`, the address byte the Position Decoder expects. -/
  expectedAddr : Byte
deriving DecidableEq, Repr

/-- The legal range of the parameters (R8): only `RX_CAP` is bounded. -/
abbrev Params.legal (p : Params) : Prop := 1 ≤ p.rxCap

/-- This hardware's parameter values (R8, third column). -/
def Config.apex360 : Params := { quietMs := 100, rxCap := 128, expectedAddr := 0x01 }

/-- `TERM`, the terminator byte (R9). -/
def Config.term : Byte := 0x6B

/-- `POS_FUNC`, the function code of the position query and of its reply (R9). -/
def Config.posFunc : Byte := 0x36

/-- `POS_MIN_LEN`, the shortest frame the Position Decoder decodes (R9). -/
def Config.posMinLen : Nat := 7

/-- `POS_SCALE_NUM` (R9). -/
def Config.posScaleNum : Nat := 360

/-- `POS_SCALE_DEN` (R9). -/
def Config.posScaleDen : Nat := 65536

/-- The environment's inputs to one step of the Frame Receiver (10_state.md R22). The byte source's own part,
`rx_avail` and `rx_data`, follows from its queue (60_exceptions.md R222): `arrivals` are the bytes that join the queue
before the step samples it. -/
structure Poll where
  rst : Bool
  start : Bool
  arrivals : List Byte
  nowMs : Nat
deriving DecidableEq, Repr, Inhabited

/-- What the host reads (10_state.md R23, R27, R33): the reads that can be refused. -/
inductive ReadTarget where
  | bufCell (i : Nat)
  | frame
  | pdNeg
  | pdMag
  | pdAngle
deriving DecidableEq, Repr, Inhabited

/-- One action of the environment on the block (60_exceptions.md R225). -/
inductive EnvEvent where
  /-- Drive `ce_op` and the operation parameters: any command with any integers and booleans. -/
  | encode (cmd : Instr)
  /-- Drive `pd_in` with any byte list. -/
  | decode (f : List Byte)
  /-- Drive `pd_in` with the receiver's frame output (the script line DECODE, 30_encoding.md R90). -/
  | decodeFrame
  /-- One step of the Frame Receiver. -/
  | poll (p : Poll)
  /-- Read an output. -/
  | read (t : ReadTarget)
  /-- Give an instruction by the bytes of its encoding: the step decodes them and runs what they say. -/
  | word (bytes : List Byte)
deriving DecidableEq, Repr, Inhabited

/-- FREE VALUE: what the environment does next once State's script of its actions is used up. The spec fixes no host,
byte feed or poll rate (92_eei_decisions.md D2): any action may come. -/
opaque Config.freeEvent : Nat → EnvEvent

/-- FREE VALUE: `rx_data` while `rx_avail = 0` (60_exceptions.md R227, 92_eei_decisions.md D30). -/
opaque Config.idleRxData : Nat → Byte

end Sys2Proof
end

