-- ==== Sys2Proof/Machine/Operands.lean ====
section
/-! DEFINITION. Operand forms: the field functions of 00_scope.md R12 that every encoder rule uses, the fields of the
position reply (30_encoding.md R83) and the reading's angle, exact and in its binary64 view (42_position_decoder.md
R194, R195). -/
namespace Sys2Proof.Machine

/-- `mask_w(v) = v mod 2^w`, Euclidean: the low w bits of an integer, in two's complement if it is negative (R12). -/
def mask (w : Nat) (v : Int) : BitVec w := BitVec.ofInt w v

/-- `u8(v)` (R12). -/
def u8 (v : Int) : List Byte := [mask 8 v]

/-- `be16(v)`: most significant byte first (R12, 20_memory.md R52). -/
def be16 (v : Int) : List Byte := [(mask 16 v).extractLsb' 8 8, (mask 16 v).extractLsb' 0 8]

/-- `be32(v)`: most significant byte first (R12, 20_memory.md R52). -/
def be32 (v : Int) : List Byte :=
  [(mask 32 v).extractLsb' 24 8, (mask 32 v).extractLsb' 16 8, (mask 32 v).extractLsb' 8 8,
   (mask 32 v).extractLsb' 0 8]

/-- `flag(b)`: a full byte, 0x01 for true and 0x00 for false (R12, 30_encoding.md R71). -/
def flag (b : Bool) : List Byte := [if b then 0x01 else 0x00]

/-- `u32be(p,q,r,s)`: four bytes reassembled big-endian (R12). -/
def u32be (p q r s : Byte) : BitVec 32 := p ++ q ++ r ++ s

/-- Two bytes reassembled big-endian (40_command_encoder.md R107). -/
def u16be (p q : Byte) : BitVec 16 := p ++ q

/-- The fields a position reading is made of: sign, magnitude bytes (30_encoding.md R83). -/
structure RposFields where
  addr : Byte
  func : Byte
  sign : Byte
  m3 : Byte
  m2 : Byte
  m1 : Byte
  m0 : Byte
deriving DecidableEq, Repr

/-- The first seven bytes of a frame by their RPOS names; none for a shorter frame. No later byte is read (R83, R197). -/
def rposFields : List Byte → Option RposFields
  | a :: c :: g :: m3 :: m2 :: m1 :: m0 :: _ => some ⟨a, c, g, m3, m2, m1, m0⟩
  | _ => none

/-- A frame is an RPOS frame for the expected address: at least 7 bytes and the two prefix bytes (R83, R191). -/
def isRpos (expected : Byte) (f : List Byte) : Bool :=
  decide (Config.posMinLen ≤ f.length) && decide (f[0]? = some expected) && decide (f[1]? = some Config.posFunc)

/-- `pd_angle` as R194's second form gives it: a signed number of 2^-13 degrees, `(neg ? -1 : +1) * (mag * 45)`. -/
def angleUnits (neg : Bool) (mag : BitVec 32) : Int := (if neg then -1 else 1) * ((mag.toNat * 45 : Nat) : Int)

/-- The binary64 bit pattern of a natural number `n` of 2^-13 units with a sign, exact for `0 < n < 2^53`: the leading
one is implicit, the exponent field is biased by 1023 (R195; the format is IEEE 754's, 93_implementation_defined.md G7). -/
def float64OfScaled (neg : Bool) (n : Nat) : BitVec 64 :=
  let sign := if neg then 2 ^ 63 else 0
  if n = 0 then BitVec.ofNat 64 sign
  else
    let e := Nat.log2 n
    BitVec.ofNat 64 (sign + (e + 1010) * 2 ^ 52 + (n - 2 ^ e) * 2 ^ (52 - e))

/-- The float64 view of the angle: `pd_mag * 45` units of 2^-13 degrees, and -0.0 for a negative zero (R194, R195). -/
def float64Of (neg : Bool) (mag : BitVec 32) : BitVec 64 := float64OfScaled neg (mag.toNat * 45)

end Sys2Proof.Machine
end

