-- ==== Sys2Proof/WellFormed.lean ====
section
/-! DEFINITION. Well-formed instructions: those whose operands are values an encoding carries, every integer within its
field's range (30_encoding.md R71, R85) and, for POS_REPLY, a frame of the format RPOS (R83). An instruction that is not
well-formed still runs: the encoder reduces any integer (40_command_encoder.md R102) and DECODE takes any byte list
(42_position_decoder.md R190); it is only not what a decoder reads back from the wire. -/
namespace Sys2Proof

/-- An integer that a w-bit field carries unchanged. -/
def inField (w : Nat) (v : Int) : Bool := decide (0 ≤ v) && decide (v < 2 ^ w)

/-- The operands are values the instruction's encoding carries; `expected` is `EXPECTED_ADDR`. -/
def Instr.wfFor (expected : Byte) : Instr → Bool
  | .rdparam1F a | .rdparam20 a | .rdparam21 a | .rdparam24 a | .rdparam27 a | .rdparam31 a | .rdparam33 a
  | .rdparam35 a | .rdparam36 a | .rdparam37 a | .rdparam3A a | .rdparam3B a | .rdparam42 a | .rdparam43 a
  | .zeroPos a | .clrStall a | .syncRun a | .homeAbort a => inField 8 a
  | .setCtrlMode a _ mode => inField 8 a && inField 8 mode
  | .enable a _ _ => inField 8 a
  | .vel a dir velocity acc _ => inField 8 a && inField 8 dir && inField 16 velocity && inField 8 acc
  | .pos a dir velocity acc pulses _ _ =>
      inField 8 a && inField 8 dir && inField 16 velocity && inField 8 acc && inField 32 pulses
  | .stop a _ => inField 8 a
  | .setHomeZero a _ => inField 8 a
  | .homeCfg a _ mode dir hvel htmo svel scur stime _ =>
      inField 8 a && inField 8 mode && inField 8 dir && inField 16 hvel && inField 32 htmo && inField 16 svel
        && inField 16 scur && inField 16 stime
  | .home a mode _ => inField 8 a && inField 8 mode
  | .posReply f => Machine.isRpos expected f
  | .reset | .rxStart | .rxHold | .rxClockFault | .rxConsume | .rxDrop | .rxComplete | .rxWait => true

/-- Well-formed for this hardware's parameters. -/
def WellFormed (i : Instr) : Bool := i.wfFor Config.apex360.expectedAddr

/-- The integer a w-bit field carries for v: `mask_w(v)` (R12). -/
def fieldValue (w : Nat) (v : Int) : Int := v % 2 ^ w

/-- The instruction the wire carries for a command: every integer reduced to its field's width (R102). The operations
that are no command carry no integer and stay as they are. -/
def Instr.reduced : Instr → Instr
  | .rdparam1F a => .rdparam1F (fieldValue 8 a)
  | .rdparam20 a => .rdparam20 (fieldValue 8 a)
  | .rdparam21 a => .rdparam21 (fieldValue 8 a)
  | .rdparam24 a => .rdparam24 (fieldValue 8 a)
  | .rdparam27 a => .rdparam27 (fieldValue 8 a)
  | .rdparam31 a => .rdparam31 (fieldValue 8 a)
  | .rdparam33 a => .rdparam33 (fieldValue 8 a)
  | .rdparam35 a => .rdparam35 (fieldValue 8 a)
  | .rdparam36 a => .rdparam36 (fieldValue 8 a)
  | .rdparam37 a => .rdparam37 (fieldValue 8 a)
  | .rdparam3A a => .rdparam3A (fieldValue 8 a)
  | .rdparam3B a => .rdparam3B (fieldValue 8 a)
  | .rdparam42 a => .rdparam42 (fieldValue 8 a)
  | .rdparam43 a => .rdparam43 (fieldValue 8 a)
  | .zeroPos a => .zeroPos (fieldValue 8 a)
  | .clrStall a => .clrStall (fieldValue 8 a)
  | .setCtrlMode a save mode => .setCtrlMode (fieldValue 8 a) save (fieldValue 8 mode)
  | .enable a en sync => .enable (fieldValue 8 a) en sync
  | .vel a dir velocity acc sync =>
      .vel (fieldValue 8 a) (fieldValue 8 dir) (fieldValue 16 velocity) (fieldValue 8 acc) sync
  | .pos a dir velocity acc pulses rel sync =>
      .pos (fieldValue 8 a) (fieldValue 8 dir) (fieldValue 16 velocity) (fieldValue 8 acc) (fieldValue 32 pulses) rel
        sync
  | .stop a sync => .stop (fieldValue 8 a) sync
  | .syncRun a => .syncRun (fieldValue 8 a)
  | .setHomeZero a save => .setHomeZero (fieldValue 8 a) save
  | .homeCfg a save mode dir hvel htmo svel scur stime auto =>
      .homeCfg (fieldValue 8 a) save (fieldValue 8 mode) (fieldValue 8 dir) (fieldValue 16 hvel) (fieldValue 32 htmo)
        (fieldValue 16 svel) (fieldValue 16 scur) (fieldValue 16 stime) auto
  | .home a mode sync => .home (fieldValue 8 a) (fieldValue 8 mode) sync
  | .homeAbort a => .homeAbort (fieldValue 8 a)
  | .posReply f => .posReply f
  | .reset => .reset
  | .rxStart => .rxStart
  | .rxHold => .rxHold
  | .rxClockFault => .rxClockFault
  | .rxConsume => .rxConsume
  | .rxDrop => .rxDrop
  | .rxComplete => .rxComplete
  | .rxWait => .rxWait

end Sys2Proof
end

