-- ==== Sys2Proof/Decode.lean ====
section
/-! DEFINITION. Frames: the encoder, written from the format layouts and the opcode map (30_encoding.md R70-R80), and
the decoder, total on any byte list and rejecting by name. A frame carries no length and no delimiter (R81, R82): the
decoder takes the WHOLE list as one frame and finds its length from the function code (R87). The Command Encoder's
meanings (Machine/ReadParam.lean, Machine/Motion.lean) are written from the command rules of 40_command_encoder.md
instead, so that the two descriptions can be proved to agree. -/
namespace Sys2Proof

/-- Why a byte list is not the encoding of an instruction. -/
inductive DecodeError where
  /-- Fewer than two bytes: no address and function code. -/
  | tooShort
  /-- The function code is none of the 26 rows (30_encoding.md R84). -/
  | unknownFunction (code : Byte)
  /-- The length is not the one the function code fixes (R81). -/
  | wrongLength
  /-- The sub-code is not the row's constant (R85). -/
  | wrongSubCode (code : Byte)
  /-- A flag byte is neither 0x00 nor 0x01 (R85). -/
  | wrongFlag (value : Byte)
  /-- The last byte is not 0x6B (R70). -/
  | wrongTerminator (value : Byte)
deriving DecidableEq, Repr

open Machine (u8 be16 be32 flag u16be u32be isRpos)

/-! ## The encoder -/

/-- The function code column of R80; none for the operations without a command frame. -/
def funcCode : Instr → Option Byte
  | .rdparam1F _ => some 0x1F
  | .rdparam20 _ => some 0x20
  | .rdparam21 _ => some 0x21
  | .rdparam24 _ => some 0x24
  | .rdparam27 _ => some 0x27
  | .rdparam31 _ => some 0x31
  | .rdparam33 _ => some 0x33
  | .rdparam35 _ => some 0x35
  | .rdparam36 _ => some 0x36
  | .rdparam37 _ => some 0x37
  | .rdparam3A _ => some 0x3A
  | .rdparam3B _ => some 0x3B
  | .rdparam42 _ => some 0x42
  | .rdparam43 _ => some 0x43
  | .zeroPos _ => some 0x0A
  | .clrStall _ => some 0x0E
  | .setCtrlMode _ _ _ => some 0x46
  | .enable _ _ _ => some 0xF3
  | .vel _ _ _ _ _ => some 0xF6
  | .pos _ _ _ _ _ _ _ => some 0xFD
  | .stop _ _ => some 0xFE
  | .syncRun _ => some 0xFF
  | .setHomeZero _ _ => some 0x93
  | .homeCfg _ _ _ _ _ _ _ _ _ _ => some 0x4C
  | .home _ _ _ => some 0x9A
  | .homeAbort _ => some 0x9C
  | .posReply _ | .reset | .rxStart | .rxHold | .rxClockFault | .rxConsume | .rxDrop | .rxComplete | .rxWait => none

/-- The sub-code column of R80, as the bytes it adds to the frame: none or one. -/
def subCode : Instr → List Byte
  | .zeroPos _ => [0x6D]
  | .clrStall _ => [0x52]
  | .setCtrlMode _ _ _ => [0x69]
  | .enable _ _ _ => [0xAB]
  | .stop _ _ => [0x98]
  | .syncRun _ => [0x66]
  | .setHomeZero _ _ => [0x88]
  | .homeCfg _ _ _ _ _ _ _ _ _ _ => [0xAE]
  | .homeAbort _ => [0x48]
  | .rdparam1F _ | .rdparam20 _ | .rdparam21 _ | .rdparam24 _ | .rdparam27 _ | .rdparam31 _ | .rdparam33 _
  | .rdparam35 _ | .rdparam36 _ | .rdparam37 _ | .rdparam3A _ | .rdparam3B _ | .rdparam42 _ | .rdparam43 _
  | .vel _ _ _ _ _ | .pos _ _ _ _ _ _ _ | .home _ _ _
  | .posReply _ | .reset | .rxStart | .rxHold | .rxClockFault | .rxConsume | .rxDrop | .rxComplete | .rxWait => []

/-- The payload of the row's layout, field by field in frame order (R72-R79). -/
def payload : Instr → List Byte
  | .setCtrlMode _ save mode => flag save ++ u8 mode
  | .enable _ en sync => flag en ++ flag sync
  | .vel _ dir velocity acc sync => u8 dir ++ be16 velocity ++ u8 acc ++ flag sync
  | .pos _ dir velocity acc pulses rel sync =>
      u8 dir ++ be16 velocity ++ u8 acc ++ be32 pulses ++ flag rel ++ flag sync
  | .stop _ sync => flag sync
  | .setHomeZero _ save => flag save
  | .homeCfg _ save mode dir hvel htmo svel scur stime auto =>
      flag save ++ u8 mode ++ u8 dir ++ be16 hvel ++ be32 htmo ++ be16 svel ++ be16 scur ++ be16 stime ++ flag auto
  | .home _ mode sync => u8 mode ++ flag sync
  | .rdparam1F _ | .rdparam20 _ | .rdparam21 _ | .rdparam24 _ | .rdparam27 _ | .rdparam31 _ | .rdparam33 _
  | .rdparam35 _ | .rdparam36 _ | .rdparam37 _ | .rdparam3A _ | .rdparam3B _ | .rdparam42 _ | .rdparam43 _
  | .zeroPos _ | .clrStall _ | .syncRun _ | .homeAbort _
  | .posReply _ | .reset | .rxStart | .rxHold | .rxClockFault | .rxConsume | .rxDrop | .rxComplete | .rxWait => []

/-- The frame of an instruction for the expected address `expected`: a command's frame by the general shape of R70, a
POS_REPLY's own bytes if they are of the format RPOS (R83), none for the port-selected operations and for a byte list
that is no RPOS frame. -/
def encodeFor (expected : Byte) (i : Instr) : Option (List Byte) :=
  match i.address, funcCode i with
  | some a, some c => some (u8 a ++ [c] ++ subCode i ++ payload i ++ [Config.term])
  | _, _ =>
    match i with
    | .posReply f => if isRpos expected f then some f else none
    | _ => none

/-- The frame of an instruction for this hardware's expected address. -/
def encode (i : Instr) : Option (List Byte) := encodeFor Config.apex360.expectedAddr i

/-- The length of a frame by its function code (R81). -/
def lengthByFunc (c : Byte) : Option Nat :=
  if c ∈ ([0x1F, 0x20, 0x21, 0x24, 0x27, 0x31, 0x33, 0x35, 0x36, 0x37, 0x3A, 0x3B, 0x42, 0x43] : List Byte) then some 3
  else if c ∈ ([0x0A, 0x0E, 0xFF, 0x9C] : List Byte) then some 4
  else if c ∈ ([0xFE, 0x93, 0x9A] : List Byte) then some 5
  else if c ∈ ([0x46, 0xF3] : List Byte) then some 6
  else if c = 0xF6 then some 8
  else if c = 0xFD then some 13
  else if c = 0x4C then some 20
  else none

/-! ## The decoder -/

/-- The integer a one-byte field carries. -/
def int8 (b : Byte) : Int := (b.toNat : Int)

/-- The integer a two-byte big-endian field carries. -/
def int16 (p q : Byte) : Int := ((u16be p q).toNat : Int)

/-- The integer a four-byte big-endian field carries. -/
def int32 (p q r s : Byte) : Int := ((u32be p q r s).toNat : Int)

/-- The terminator closes the frame (R70). -/
def closed (t : Byte) (i : Instr) : Except DecodeError Instr :=
  if t = Config.term then .ok i else .error (.wrongTerminator t)

/-- A flag byte is 0x00 or 0x01 (R85). -/
def withFlag (x : Byte) (k : Bool → Except DecodeError Instr) : Except DecodeError Instr :=
  if x = 0x01 then k true else if x = 0x00 then k false else .error (.wrongFlag x)

/-- The sub-code is the row's constant (R85). -/
def withSub (want got : Byte) (k : Except DecodeError Instr) : Except DecodeError Instr :=
  if got = want then k else .error (.wrongSubCode got)

/-- Format F3 (R72). -/
def decodeF3 (k : Int → Instr) (a : Byte) : List Byte → Except DecodeError Instr
  | [t] => closed t (k (int8 a))
  | _ => .error .wrongLength

/-- Format F4 (R73). -/
def decodeF4 (sc : Byte) (k : Int → Instr) (a : Byte) : List Byte → Except DecodeError Instr
  | [s, t] => withSub sc s (closed t (k (int8 a)))
  | _ => .error .wrongLength

/-- Format F5S (R74). -/
def decodeF5S (sc : Byte) (k : Int → Bool → Instr) (a : Byte) : List Byte → Except DecodeError Instr
  | [s, x, t] => withSub sc s (withFlag x fun b => closed t (k (int8 a) b))
  | _ => .error .wrongLength

/-- Format F6S of SET_CTRL_MODE (R75). -/
def decodeSetCtrlMode (a : Byte) : List Byte → Except DecodeError Instr
  | [s, x, m, t] => withSub 0x69 s (withFlag x fun save => closed t (.setCtrlMode (int8 a) save (int8 m)))
  | _ => .error .wrongLength

/-- Format F6S of ENABLE (R75). -/
def decodeEnable (a : Byte) : List Byte → Except DecodeError Instr
  | [s, x, y, t] =>
      withSub 0xAB s (withFlag x fun en => withFlag y fun sync => closed t (.enable (int8 a) en sync))
  | _ => .error .wrongLength

/-- Format F5H (R76). -/
def decodeHome (a : Byte) : List Byte → Except DecodeError Instr
  | [m, y, t] => withFlag y fun sync => closed t (.home (int8 a) (int8 m) sync)
  | _ => .error .wrongLength

/-- Format FVEL (R77). -/
def decodeVel (a : Byte) : List Byte → Except DecodeError Instr
  | [d, v1, v0, c, y, t] =>
      withFlag y fun sync => closed t (.vel (int8 a) (int8 d) (int16 v1 v0) (int8 c) sync)
  | _ => .error .wrongLength

/-- Format FPOS (R78). -/
def decodePos (a : Byte) : List Byte → Except DecodeError Instr
  | [d, v1, v0, c, p3, p2, p1, p0, r, y, t] =>
      withFlag r fun rel => withFlag y fun sync =>
        closed t (.pos (int8 a) (int8 d) (int16 v1 v0) (int8 c) (int32 p3 p2 p1 p0) rel sync)
  | _ => .error .wrongLength

/-- Format FHCFG (R79). -/
def decodeHomeCfg (a : Byte) : List Byte → Except DecodeError Instr
  | [s, x, m, d, h1, h0, t3, t2, t1, t0, w1, w0, i1, i0, k1, k0, u, t] =>
      withSub 0xAE s (withFlag x fun save => withFlag u fun auto =>
        closed t (.homeCfg (int8 a) save (int8 m) (int8 d) (int16 h1 h0) (int32 t3 t2 t1 t0) (int16 w1 w0)
          (int16 i1 i0) (int16 k1 k0) auto))
  | _ => .error .wrongLength

/-- A command frame by its function code (R80, R81, R87): address, function code, the bytes after them. -/
def decodeCommand (a c : Byte) (rest : List Byte) : Except DecodeError Instr :=
  if c = 0x1F then decodeF3 .rdparam1F a rest
  else if c = 0x20 then decodeF3 .rdparam20 a rest
  else if c = 0x21 then decodeF3 .rdparam21 a rest
  else if c = 0x24 then decodeF3 .rdparam24 a rest
  else if c = 0x27 then decodeF3 .rdparam27 a rest
  else if c = 0x31 then decodeF3 .rdparam31 a rest
  else if c = 0x33 then decodeF3 .rdparam33 a rest
  else if c = 0x35 then decodeF3 .rdparam35 a rest
  else if c = 0x36 then decodeF3 .rdparam36 a rest
  else if c = 0x37 then decodeF3 .rdparam37 a rest
  else if c = 0x3A then decodeF3 .rdparam3A a rest
  else if c = 0x3B then decodeF3 .rdparam3B a rest
  else if c = 0x42 then decodeF3 .rdparam42 a rest
  else if c = 0x43 then decodeF3 .rdparam43 a rest
  else if c = 0x0A then decodeF4 0x6D .zeroPos a rest
  else if c = 0x0E then decodeF4 0x52 .clrStall a rest
  else if c = 0x46 then decodeSetCtrlMode a rest
  else if c = 0xF3 then decodeEnable a rest
  else if c = 0xF6 then decodeVel a rest
  else if c = 0xFD then decodePos a rest
  else if c = 0xFE then decodeF5S 0x98 .stop a rest
  else if c = 0xFF then decodeF4 0x66 .syncRun a rest
  else if c = 0x93 then decodeF5S 0x88 .setHomeZero a rest
  else if c = 0x4C then decodeHomeCfg a rest
  else if c = 0x9A then decodeHome a rest
  else if c = 0x9C then decodeF4 0x48 .homeAbort a rest
  else .error (.unknownFunction c)

/-- The instruction a whole frame is: an RPOS frame for the expected address (R83), else the command of its function
code. The two never compete: a command of function code 0x36 has 3 bytes, an RPOS frame at least 7. -/
def decode (expected : Byte) (bs : List Byte) : Except DecodeError Instr :=
  if isRpos expected bs then .ok (.posReply bs)
  else
    match bs with
    | a :: c :: rest => decodeCommand a c rest
    | _ => .error .tooShort

/-! ## Instructions as the opcode table numbers their bits -/

/-- The low `n` bytes of a number, most significant first: the table reads a row's encoding as ONE number whose last
byte on the wire is bits 7..0. -/
def bytesBE : Nat → Nat → List Byte
  | 0, _ => []
  | n + 1, w => BitVec.ofNat 8 (w >>> (8 * n)) :: bytesBE n w

/-- Does the list decode to a command? -/
def decodesToCommand (bs : List Byte) : Bool :=
  match bs with
  | a :: c :: rest =>
    match decodeCommand a c rest with
    | .ok _ => true
    | .error _ => false
  | _ => false

/-- The frame lengths of the opcode map (R81), shortest first. -/
def frameLengths : List Nat := [3, 4, 5, 6, 8, 13, 20]

/-- The bytes, first on the wire first, of the instruction whose bits the table numbers as `w` in `nbits` bits. A command
row's number covers its whole frame, and the bits above `nbits` (the address) are 0: the shortest command frame that
holds `nbits` bits and decodes. POS_REPLY's number covers its FIRST bytes: the bytes after them are 0 up to the 7 that
the decoder needs. -/
def tableBytes (nbits w : Nat) : List Byte :=
  match frameLengths.find? fun n => decide (nbits ≤ 8 * n) && decide (w < 2 ^ (8 * n)) && decodesToCommand (bytesBE n w) with
  | some n => bytesBE n w
  | none =>
    let given := bytesBE (nbits / 8) w
    given ++ List.replicate (Config.posMinLen - given.length) 0x00

end Sys2Proof

/-- The instruction the decoder reads from the opcode table's word `w` of `nbits` bits. -/
def Sys2Proof.decodeTableWord (nbits w : Nat) : Option Sys2Proof.Instr :=
  match Sys2Proof.decode Sys2Proof.Config.apex360.expectedAddr (Sys2Proof.tableBytes nbits w) with
  | .ok i => some i
  | .error _ => none
end

