-- ==== Sys2Proof/Machine/State.lean ====
section
/-! DEFINITION. The state: the Frame Receiver's registers (10_state.md R25-R30), the ports of the three units (R21-R23),
the parameters of the model instance (00_scope.md R8), and the environment: the byte source's queue (60_exceptions.md
R222) and the actions still to come. Plain data throughout. -/
namespace Sys2Proof.Machine

/-- `rx_state` (R25). The binary encoding is not observable (93_implementation_defined.md U13). -/
inductive RxState where
  | idle
  | accumulating
  | complete
deriving DecidableEq, Repr

/-- A `ModelFault` reason (60_exceptions.md R211 F1): the clock value and the timestamp it fell behind. -/
inductive ModelFault where
  | clockNotMonotonic (nowMs lastMs : Nat)
deriving DecidableEq, Repr

/-- `pd_reason` (R23, 60_exceptions.md R211 S1, S2). -/
inductive PdReason where
  | short
  | wrongPrefix
deriving DecidableEq, Repr

/-- `pd_neg`, `pd_mag`, `pd_angle` and the float64 view of the angle (R23, 42_position_decoder.md R192-R195). -/
structure Reading where
  neg : Bool
  mag : BitVec 32
  /-- `pd_angle`, exact, in units of 2^-13 degrees (R194's second form). -/
  angleUnits : Int
  /-- The float64 view of `pd_angle`, as a bit pattern (R195). -/
  float64 : BitVec 64
deriving DecidableEq, Repr

/-- The Position Decoder's outputs: `pd_valid = 1` with a reading, or `pd_valid = 0` with its reason (R23, R196). -/
inductive PdResult where
  | noReading (reason : PdReason)
  | reading (r : Reading)
deriving DecidableEq, Repr

/-- The Frame Receiver's input ports, as the current step sampled them (R22). -/
structure FrPorts where
  rst : Bool
  start : Bool
  rxAvail : Bool
  rxData : Byte
  nowMs : Nat
deriving DecidableEq, Repr

/-- `rx_buf` (R27): the cells that hold a byte, by strictly rising index; a cell that is not listed holds no value. -/
abbrev Memory := List Host.Cell

/-- Every piece of state of the block, its ports and its environment. -/
structure State where
  /-- The parameters of the instance (00_scope.md R8). No step writes them. -/
  params : Params
  /-- `ce_op`, `ce_addr` and the operation parameters: the command driven last (R21). -/
  ceIn : Option Instr
  /-- `ce_len` (R21). -/
  ceLen : Nat
  /-- `ce_frame`, index 0 first on the wire (R21). -/
  ceFrame : List Byte
  /-- `rst`, `start`, `rx_avail`, `rx_data`, `now_ms` (R22). -/
  frIn : FrPorts
  /-- `rx_state` (R25). -/
  rxState : RxState
  /-- `rx_len` (R26). -/
  rxLen : Nat
  /-- `rx_buf` (R27). -/
  rxBuf : Memory
  /-- `rx_last_ms`: a time, or no value (R28). -/
  rxLastMs : Option Nat
  /-- `rx_overflow` (R29). -/
  rxOverflow : Bool
  /-- `rx_take` of the Frame Receiver's last step (R22, R31). -/
  rxTake : Bool
  /-- `model_fault`: none, or the first reason raised (R30). -/
  modelFault : Option ModelFault
  /-- `pd_in` (R23). -/
  pdIn : List Byte
  /-- `pd_valid` and the outputs it governs (R23). -/
  pd : PdResult
  /-- The byte source's queue, head first (60_exceptions.md R222). -/
  source : List Byte
  /-- The environment's actions still to come, next first. The model's own field. -/
  script : List EnvEvent
  /-- How many free values have been drawn. The model's own field. -/
  freeCount : Nat
deriving DecidableEq, Repr

/-- Why the machine stops. ModelFault F1 is the only fault (60_exceptions.md R214). -/
inductive Fault where
  /-- Raised by `stepOnce` in a state whose `model_fault` is set: `raise ModelFault` stopped the model (00_scope.md
  R14). Safe: nothing is claimed of what follows a broken clock duty. -/
  | modelFault (r : ModelFault)
deriving DecidableEq, Repr

/-- Why an instruction or an action is given no meaning. -/
inductive Refusal where
  /-- Raised by an arm of `exec` for an instruction without a meaning yet; no arm does. Safe. -/
  | notModelled (mnemonic : String)
  /-- Raised by `memRead`: refuse(UnwrittenBufferCell), X1 (60_exceptions.md R211, 10_state.md R27). Safe. -/
  | unwrittenBufferCell (i : Nat)
  /-- Raised by `memRead`, for an index the buffer does not have (20_memory.md R50, R59): a read the spec gives no meaning
  is refused (00_scope.md R14, log entry 15). Safe. -/
  | noSuchCell (i : Nat)
  /-- Raised by `readFrame`: refuse(FrameNotComplete), X2 (60_exceptions.md R211, 10_state.md R33). Safe. -/
  | frameNotComplete (st : RxState)
  /-- Raised by `readReading`: refuse(NoReading), X3 (60_exceptions.md R211, 42_position_decoder.md R196). Safe. -/
  | noReading
  /-- Raised by `frSelect`: `rx_last_ms` holds no value in Accumulating, a state no run reaches (10_state.md R28).
  Safe. -/
  | noTimestamp
  /-- Raised by `whenSelected`: the ports and registers select another step of the receiver (41_frame_receiver.md R170).
  No step of the machine raises it. Safe. -/
  | notSelected (mnemonic : String)
  /-- Raised by `runEvent`: `ce_op` cannot name the operation (30_encoding.md R84). Safe. -/
  | notACommand (mnemonic : String)
  /-- Raised by `runEvent`: the bytes are the encoding of no instruction (30_encoding.md R84, R85). Safe. -/
  | undecodable (e : DecodeError)
deriving DecidableEq, Repr

/-- The state right after reset (10_state.md R34, 70_reset_and_hazards.md R242): the receiver's registers at the values
R34 states; ports at the values the assumption log names (entries 5, 6, 7); nothing queued and no action scripted
(entries 2, 3). -/
def State.reset : State where
  params := Config.apex360
  ceIn := none
  ceLen := 0
  ceFrame := []
  frIn := { rst := false, start := false, rxAvail := false, rxData := 0x00, nowMs := 0 }
  rxState := .idle
  rxLen := 0
  rxBuf := []
  rxLastMs := none
  rxOverflow := false
  rxTake := false
  modelFault := none
  pdIn := []
  pd := .noReading .short
  source := []
  script := []
  freeCount := 0

end Sys2Proof.Machine
end

