-- ==== Sys2Proof/Machine/Flags.lean ====
section
/-! DEFINITION. Flags and derived outputs: the receiver's combinational conditions and status outputs (10_state.md R31,
R32, 41_frame_receiver.md R161, R169) and the Position Decoder's acceptance and sign (42_position_decoder.md R191,
R192). -/
namespace Sys2Proof.Machine

/-- `rx_busy` (R32). -/
def State.rxBusy (s : State) : Bool := decide (s.rxState = .accumulating)

/-- `rx_done` (R32). -/
def State.rxDone (s : State) : Bool := decide (s.rxState = .complete)

/-- The clock ran backwards: `now_ms < rx_last_ms` (R169). A timestamp without a value is behind no clock. -/
def State.clockFault (s : State) : Bool :=
  match s.rxLastMs with
  | some last => decide (s.frIn.nowMs < last)
  | none => false

/-- `rx_take` from the registers and the sampled ports (R31). -/
def State.takesByte (s : State) : Bool := s.rxBusy && !s.frIn.rst && s.frIn.rxAvail && !s.clockFault

/-- The gap `now_ms - rx_last_ms` exceeds `QUIET_MS` (R161, R168); used only when the clock has not run backwards. -/
def quietExceeded (p : Params) (nowMs lastMs : Nat) : Bool := decide (p.quietMs < nowMs - lastMs)

/-- `pd_valid` as a condition on the input (R191). -/
def pdAccepts (expected : Byte) (f : List Byte) : Bool := isRpos expected f

/-- `pd_neg` of a sign byte: every nonzero value is negative (R192). -/
def pdNegOf (sign : Byte) : Bool := decide (sign ≠ 0x00)

/-- The output `pd_valid` (R23). -/
def State.pdValid (s : State) : Bool :=
  match s.pd with
  | .reading _ => true
  | .noReading _ => false

end Sys2Proof.Machine
end

