-- ==== Sys2Proof/Machine/Ops.lean ====
section
/-! DEFINITION. The named operations over the buffer, the ports and the registers that the meanings share. The block has
no trap entry and no return (60_exceptions.md R217, R218): the one thing that is raised is a ModelFault (00_scope.md
R14), `State.raiseModelFault`. -/
namespace Sys2Proof.Machine

/-- The result of a read (00_scope.md R14): a value, or the reason it has no meaning. No read faults (60_exceptions.md
R214). -/
inductive Read (α : Type) where
  | value (v : α)
  | refused (r : Refusal)
deriving DecidableEq, Repr

/-! ## The buffer -/

/-- The canonical form: strictly rising indices. An unlisted cell holds no value, so no entry can equal it. -/
def Memory.wf : Memory → Bool
  | [] => true
  | [_] => true
  | c :: d :: m => decide (c.1 < d.1) && Memory.wf (d :: m)

/-- What a cell holds: a byte or no value (10_state.md R27). -/
def Memory.get (i : Nat) : Memory → Option Byte
  | [] => none
  | c :: m => if c.1 = i then some c.2 else Memory.get i m

/-- `rx_buf[i] <- v`, keeping the indices rising. -/
def Memory.put (i : Nat) (v : Byte) : Memory → Memory
  | [] => [(i, v)]
  | c :: m =>
    if i < c.1 then (i, v) :: c :: m
    else if i = c.1 then (i, v) :: m
    else c :: Memory.put i v m

/-- `MemRead(i, 1)` (R13): a cell that holds no value is refused (R27), and so is an index outside 0..RX_CAP-1,
which no cell has (20_memory.md R50, R59). -/
def memRead (i : Nat) (s : State) : Read Byte :=
  if s.params.rxCap ≤ i then .refused (.noSuchCell i)
  else
    match Memory.get i s.rxBuf with
    | some v => .value v
    | none => .refused (.unwrittenBufferCell i)

/-- `MemWrite(i, 1, v)` (R13). -/
def State.memWrite (i : Nat) (v : Byte) (s : State) : State := { s with rxBuf := Memory.put i v s.rxBuf }

/-- The cells `i, i+1, ..., i+n-1` in order. -/
def readCells (s : State) : Nat → Nat → Read (List Byte)
  | _, 0 => .value []
  | i, n + 1 =>
    match memRead i s with
    | .value b =>
      match readCells s (i + 1) n with
      | .value bs => .value (b :: bs)
      | .refused r => .refused r
    | .refused r => .refused r

/-- The frame output: the cells below `rx_len`, defined only in Complete (10_state.md R33). -/
def readFrame (s : State) : Read (List Byte) :=
  if s.rxState = .complete then readCells s 0 s.rxLen else .refused (.frameNotComplete s.rxState)

/-- The reading, defined only when `pd_valid = 1` (R23, 42_position_decoder.md R196). -/
def readReading (s : State) : Read Reading :=
  match s.pd with
  | .reading r => .value r
  | .noReading _ => .refused .noReading

/-! ## Ports -/

/-- The Command Encoder's outputs for a command: `ce_frame` and `ce_len`, and nothing else (40_command_encoder.md
R100). -/
def State.emit (cmd : Instr) (frame : List Byte) (s : State) : State :=
  { s with ceIn := some cmd, ceLen := frame.length, ceFrame := frame }

/-- The Position Decoder's outputs for an input (42_position_decoder.md R199). -/
def State.drivePd (f : List Byte) (r : PdResult) (s : State) : State := { s with pdIn := f, pd := r }

/-- The inputs of a receiver step: the arrivals join the byte source's queue, whose head then shows on `rx_avail` and
`rx_data` (10_state.md R22, 60_exceptions.md R222); with an empty queue `rx_data` is a free value (R227). -/
def State.sample (p : Poll) (s : State) : State :=
  match s.source ++ p.arrivals with
  | [] =>
    { s with
      source := []
      frIn := { rst := p.rst, start := p.start, rxAvail := false, rxData := Config.idleRxData s.freeCount, nowMs := p.nowMs }
      freeCount := s.freeCount + 1 }
  | b :: q =>
    { s with
      source := b :: q
      frIn := { rst := p.rst, start := p.start, rxAvail := true, rxData := b, nowMs := p.nowMs } }

/-! ## The receiver's step -/

/-- The eight outcomes of a receiver step (41_frame_receiver.md R160). -/
inductive FrOp where
  | reset
  | start
  | hold
  | clockFault
  | consume
  | drop
  | complete
  | wait
deriving DecidableEq, Repr

/-- The table row of an outcome. -/
def FrOp.toInstr : FrOp → Instr
  | .reset => .reset
  | .start => .rxStart
  | .hold => .rxHold
  | .clockFault => .rxClockFault
  | .consume => .rxConsume
  | .drop => .rxDrop
  | .complete => .rxComplete
  | .wait => .rxWait

/-- Which step the sampled ports and the registers select, in the priority order of R170. -/
def frSelect (s : State) : Read FrOp :=
  if s.frIn.rst then .value .reset
  else if s.rxState = .idle ∨ s.rxState = .complete then
    if s.frIn.start then .value .start else .value .hold
  else
    match s.rxLastMs with
    | none => .refused .noTimestamp
    | some last =>
      if s.frIn.nowMs < last then .value .clockFault
      else if s.frIn.rxAvail && decide (s.rxLen < s.params.rxCap) then .value .consume
      else if s.frIn.rxAvail then .value .drop
      else if quietExceeded s.params s.frIn.nowMs last then .value .complete
      else .value .wait

/-- Exactly one step rule applies (R160): an operation has its effect `t` where the ports and registers select it, and
where they select another it does not happen. -/
def whenSelected (op : FrOp) (s t : State) : Host.Outcome State Fault Refusal :=
  match frSelect s with
  | .value o => if o = op then .next t else .refused (.notSelected op.toInstr.mnemonic)
  | .refused r => .refused r

/-- `raise ModelFault(r)`: the first reason raised is recorded and stays (10_state.md R30); without a reason nothing is
raised. -/
def State.raiseModelFault (r : Option ModelFault) (s : State) : State := { s with modelFault := s.modelFault.or r }

/-- `raise ModelFault(ClockNotMonotonic(now_ms, rx_last_ms))` (41_frame_receiver.md R169). -/
def State.raiseClockFault (s : State) : State :=
  s.raiseModelFault (s.rxLastMs.map fun last => .clockNotMonotonic s.frIn.nowMs last)

/-- The byte source's head is removed: `rx_take = 1` (60_exceptions.md R222). -/
def State.takeByte (s : State) : State := { s with source := s.source.tail, rxTake := true }

/-- The step takes no byte: `rx_take = 0` (10_state.md R31). -/
def State.takeNone (s : State) : State := { s with rxTake := false }

/-- START's register writes (R162), the timestamp being `now_ms`. -/
def State.beginReception (s : State) : State :=
  { s with rxState := .accumulating, rxLen := 0, rxBuf := [], rxOverflow := false, rxLastMs := some s.frIn.nowMs }

/-- STEP-CONSUME's register writes (R165). -/
def State.storeByte (s : State) : State :=
  { s.memWrite s.rxLen s.frIn.rxData with rxLen := s.rxLen + 1, rxLastMs := some s.frIn.nowMs }

/-- STEP-DROP's register writes (R166). -/
def State.overflowByte (s : State) : State := { s with rxOverflow := true, rxLastMs := some s.frIn.nowMs }

/-- STEP-COMPLETE's register write (R168). -/
def State.finishReception (s : State) : State := { s with rxState := .complete }

/-- RESET's register writes; `model_fault` is not changed (70_reset_and_hazards.md R240). -/
def State.resetReceiver (s : State) : State :=
  { s with rxState := .idle, rxLen := 0, rxBuf := [], rxLastMs := none, rxOverflow := false }

end Sys2Proof.Machine
end

