-- ==== Sys2Proof/Machine/Homing.lean ====
section
/-! DEFINITION. Homing commands (40_command_encoder.md R138-R141), each written from its own rule's pseudocode. -/
namespace Sys2Proof.Machine

/-- SET_HOME_ZERO (R138). -/
def execSetHomeZero (a : Int) (save : Bool) (s : State) :
    Host.Outcome State Fault Refusal :=
  .next (s.emit (.setHomeZero a save)
    ([mask 8 a, 0x93, 0x88] ++ flag save ++ [0x6B]))

/-- HOME_CFG (R139). -/
def execHomeCfg (a : Int) (save : Bool) (mode dir hvel htmo svel scur stime : Int) (auto : Bool) (s : State) :
    Host.Outcome State Fault Refusal :=
  .next (s.emit (.homeCfg a save mode dir hvel htmo svel scur stime auto)
    ([mask 8 a, 0x4C, 0xAE] ++ flag save ++ u8 mode ++ u8 dir ++ be16 hvel ++ be32 htmo ++ be16 svel ++ be16 scur
      ++ be16 stime ++ flag auto ++ [0x6B]))

/-- HOME (R140). -/
def execHome (a mode : Int) (sync : Bool) (s : State) :
    Host.Outcome State Fault Refusal :=
  .next (s.emit (.home a mode sync)
    ([mask 8 a, 0x9A] ++ u8 mode ++ flag sync ++ [0x6B]))

/-- HOME_ABORT (R141). -/
def execHomeAbort (a : Int) (s : State) :
    Host.Outcome State Fault Refusal :=
  .next (s.emit (.homeAbort a)
    [mask 8 a, 0x9C, 0x48, 0x6B])

end Sys2Proof.Machine
end

