-- ==== Sys2Proof/Machine/Motion.lean ====
section
/-! DEFINITION. Motion and mode commands (40_command_encoder.md R130-R137), each written from its own rule's
pseudocode. -/
namespace Sys2Proof.Machine

/-- ZERO_POS (R130). -/
def execZeroPos (a : Int) (s : State) :
    Host.Outcome State Fault Refusal :=
  .next (s.emit (.zeroPos a)
    [mask 8 a, 0x0A, 0x6D, 0x6B])

/-- CLR_STALL (R131). -/
def execClrStall (a : Int) (s : State) :
    Host.Outcome State Fault Refusal :=
  .next (s.emit (.clrStall a)
    [mask 8 a, 0x0E, 0x52, 0x6B])

/-- SET_CTRL_MODE (R132). -/
def execSetCtrlMode (a : Int) (save : Bool) (mode : Int) (s : State) :
    Host.Outcome State Fault Refusal :=
  .next (s.emit (.setCtrlMode a save mode)
    ([mask 8 a, 0x46, 0x69] ++ flag save ++ u8 mode ++ [0x6B]))

/-- ENABLE (R133). -/
def execEnable (a : Int) (en sync : Bool) (s : State) :
    Host.Outcome State Fault Refusal :=
  .next (s.emit (.enable a en sync)
    ([mask 8 a, 0xF3, 0xAB] ++ flag en ++ flag sync ++ [0x6B]))

/-- VEL (R134). -/
def execVel (a dir velocity acc : Int) (sync : Bool) (s : State) :
    Host.Outcome State Fault Refusal :=
  .next (s.emit (.vel a dir velocity acc sync)
    ([mask 8 a, 0xF6] ++ u8 dir ++ be16 velocity ++ u8 acc ++ flag sync ++ [0x6B]))

/-- POS (R135). -/
def execPos (a dir velocity acc pulses : Int) (rel sync : Bool) (s : State) :
    Host.Outcome State Fault Refusal :=
  .next (s.emit (.pos a dir velocity acc pulses rel sync)
    ([mask 8 a, 0xFD] ++ u8 dir ++ be16 velocity ++ u8 acc ++ be32 pulses ++ flag rel ++ flag sync ++ [0x6B]))

/-- STOP (R136). -/
def execStop (a : Int) (sync : Bool) (s : State) :
    Host.Outcome State Fault Refusal :=
  .next (s.emit (.stop a sync)
    ([mask 8 a, 0xFE, 0x98] ++ flag sync ++ [0x6B]))

/-- SYNC_RUN (R137). -/
def execSyncRun (a : Int) (s : State) :
    Host.Outcome State Fault Refusal :=
  .next (s.emit (.syncRun a)
    [mask 8 a, 0xFF, 0x66, 0x6B])

end Sys2Proof.Machine
end

