-- ==== Sys2Proof/Machine/Position.lean ====
section
/-! DEFINITION. The Position Decoder: DECODE (42_position_decoder.md R198). -/
namespace Sys2Proof.Machine

/-- The reading of a sign and a magnitude, with its exact angle and the float64 view (R194, R195). -/
def readingOf (neg : Bool) (mag : BitVec 32) : Reading :=
  { neg := neg, mag := mag, angleUnits := angleUnits neg mag, float64 := float64Of neg mag }

/-- The output `pd_angle` in degrees, an exact rational (R194). -/
def angleDegrees (r : Reading) : Rat := mkRat r.angleUnits (2 ^ 13)

/-- DECODE(f), by the pseudocode of R198: the length test first, then the prefix, then sign and magnitude. -/
def pdDecode (expected : Byte) (f : List Byte) : PdResult :=
  if f.length < Config.posMinLen then .noReading .short
  else if f[0]? ≠ some expected ∨ f[1]? ≠ some Config.posFunc then .noReading .wrongPrefix
  else
    match rposFields f with
    | some r => .reading (readingOf (pdNegOf r.sign) (u32be r.m3 r.m2 r.m1 r.m0))
    | none => .noReading .short

/-- POS_REPLY: DECODE applied to `pd_in = f` (R198). -/
def execPosReply (f : List Byte) (s : State) : Host.Outcome State Fault Refusal :=
  .next (s.drivePd f (pdDecode s.params.expectedAddr f))

end Sys2Proof.Machine
end

