-- ==== Sys2Proof/Machine/ReadParam.lean ====
section
/-! DEFINITION. The read-parameter family: the 14 commands RDPARAM_cc (40_command_encoder.md R108-R122), each written
from its own rule's pseudocode. -/
namespace Sys2Proof.Machine

/-- RDPARAM_1F (R109). -/
def execRdparam1F (a : Int) (s : State) : Host.Outcome State Fault Refusal :=
  .next (s.emit (.rdparam1F a) [mask 8 a, 0x1F, 0x6B])

/-- RDPARAM_20 (R110). -/
def execRdparam20 (a : Int) (s : State) : Host.Outcome State Fault Refusal :=
  .next (s.emit (.rdparam20 a) [mask 8 a, 0x20, 0x6B])

/-- RDPARAM_21 (R111). -/
def execRdparam21 (a : Int) (s : State) : Host.Outcome State Fault Refusal :=
  .next (s.emit (.rdparam21 a) [mask 8 a, 0x21, 0x6B])

/-- RDPARAM_24 (R112). -/
def execRdparam24 (a : Int) (s : State) : Host.Outcome State Fault Refusal :=
  .next (s.emit (.rdparam24 a) [mask 8 a, 0x24, 0x6B])

/-- RDPARAM_27 (R113). -/
def execRdparam27 (a : Int) (s : State) : Host.Outcome State Fault Refusal :=
  .next (s.emit (.rdparam27 a) [mask 8 a, 0x27, 0x6B])

/-- RDPARAM_31 (R114). -/
def execRdparam31 (a : Int) (s : State) : Host.Outcome State Fault Refusal :=
  .next (s.emit (.rdparam31 a) [mask 8 a, 0x31, 0x6B])

/-- RDPARAM_33 (R115). -/
def execRdparam33 (a : Int) (s : State) : Host.Outcome State Fault Refusal :=
  .next (s.emit (.rdparam33 a) [mask 8 a, 0x33, 0x6B])

/-- RDPARAM_35 (R116). -/
def execRdparam35 (a : Int) (s : State) : Host.Outcome State Fault Refusal :=
  .next (s.emit (.rdparam35 a) [mask 8 a, 0x35, 0x6B])

/-- RDPARAM_36 (R117); also the pseudo-instruction RDPOS (30_encoding.md R89). -/
def execRdparam36 (a : Int) (s : State) : Host.Outcome State Fault Refusal :=
  .next (s.emit (.rdparam36 a) [mask 8 a, 0x36, 0x6B])

/-- RDPARAM_37 (R118). -/
def execRdparam37 (a : Int) (s : State) : Host.Outcome State Fault Refusal :=
  .next (s.emit (.rdparam37 a) [mask 8 a, 0x37, 0x6B])

/-- RDPARAM_3A (R119). -/
def execRdparam3A (a : Int) (s : State) : Host.Outcome State Fault Refusal :=
  .next (s.emit (.rdparam3A a) [mask 8 a, 0x3A, 0x6B])

/-- RDPARAM_3B (R120). -/
def execRdparam3B (a : Int) (s : State) : Host.Outcome State Fault Refusal :=
  .next (s.emit (.rdparam3B a) [mask 8 a, 0x3B, 0x6B])

/-- RDPARAM_42 (R121). -/
def execRdparam42 (a : Int) (s : State) : Host.Outcome State Fault Refusal :=
  .next (s.emit (.rdparam42 a) [mask 8 a, 0x42, 0x6B])

/-- RDPARAM_43 (R122). -/
def execRdparam43 (a : Int) (s : State) : Host.Outcome State Fault Refusal :=
  .next (s.emit (.rdparam43 a) [mask 8 a, 0x43, 0x6B])

end Sys2Proof.Machine
end

