-- ==== Sys2Proof/Machine/Receiver.lean ====
section
/-! DEFINITION. The Frame Receiver's operations (41_frame_receiver.md R162-R169) and RESET (70_reset_and_hazards.md
R240). Each has its effect where the sampled ports and the registers select it by the priority of R170. -/
namespace Sys2Proof.Machine

/-- RESET (R240). -/
def execReset (s : State) : Host.Outcome State Fault Refusal := whenSelected .reset s s.resetReceiver.takeNone

/-- START (R162). -/
def execRxStart (s : State) : Host.Outcome State Fault Refusal := whenSelected .start s s.beginReception.takeNone

/-- HOLD (R164): no register changes. -/
def execRxHold (s : State) : Host.Outcome State Fault Refusal := whenSelected .hold s s.takeNone

/-- CLOCK-FAULT (R169): a ModelFault is raised, no register changes and no byte is taken. -/
def execRxClockFault (s : State) : Host.Outcome State Fault Refusal :=
  whenSelected .clockFault s s.raiseClockFault.takeNone

/-- STEP-CONSUME (R165). -/
def execRxConsume (s : State) : Host.Outcome State Fault Refusal := whenSelected .consume s s.storeByte.takeByte

/-- STEP-DROP (R166). -/
def execRxDrop (s : State) : Host.Outcome State Fault Refusal := whenSelected .drop s s.overflowByte.takeByte

/-- STEP-COMPLETE (R168). -/
def execRxComplete (s : State) : Host.Outcome State Fault Refusal := whenSelected .complete s s.finishReception.takeNone

/-- STEP-WAIT (R167): no register changes. -/
def execRxWait (s : State) : Host.Outcome State Fault Refusal := whenSelected .wait s s.takeNone

end Sys2Proof.Machine
end

