-- ==== Sys2Proof/Machine/Dispatch.lean ====
section
/-! DEFINITION. Dispatch: one arm per constructor of Instr, each one call of its meaning. -/
namespace Sys2Proof.Machine

def exec (i : Instr) (s : State) : Host.Outcome State Fault Refusal :=
  match i with
  | .rdparam1F a => Sys2Proof.Machine.execRdparam1F a s
  | .rdparam20 a => Sys2Proof.Machine.execRdparam20 a s
  | .rdparam21 a => Sys2Proof.Machine.execRdparam21 a s
  | .rdparam24 a => Sys2Proof.Machine.execRdparam24 a s
  | .rdparam27 a => Sys2Proof.Machine.execRdparam27 a s
  | .rdparam31 a => Sys2Proof.Machine.execRdparam31 a s
  | .rdparam33 a => Sys2Proof.Machine.execRdparam33 a s
  | .rdparam35 a => Sys2Proof.Machine.execRdparam35 a s
  | .rdparam36 a => Sys2Proof.Machine.execRdparam36 a s
  | .rdparam37 a => Sys2Proof.Machine.execRdparam37 a s
  | .rdparam3A a => Sys2Proof.Machine.execRdparam3A a s
  | .rdparam3B a => Sys2Proof.Machine.execRdparam3B a s
  | .rdparam42 a => Sys2Proof.Machine.execRdparam42 a s
  | .rdparam43 a => Sys2Proof.Machine.execRdparam43 a s
  | .zeroPos a => Sys2Proof.Machine.execZeroPos a s
  | .clrStall a => Sys2Proof.Machine.execClrStall a s
  | .setCtrlMode a save mode => Sys2Proof.Machine.execSetCtrlMode a save mode s
  | .enable a en sync => Sys2Proof.Machine.execEnable a en sync s
  | .vel a dir velocity acc sync => Sys2Proof.Machine.execVel a dir velocity acc sync s
  | .pos a dir velocity acc pulses rel sync => Sys2Proof.Machine.execPos a dir velocity acc pulses rel sync s
  | .stop a sync => Sys2Proof.Machine.execStop a sync s
  | .syncRun a => Sys2Proof.Machine.execSyncRun a s
  | .setHomeZero a save => Sys2Proof.Machine.execSetHomeZero a save s
  | .homeCfg a save mode dir hvel htmo svel scur stime auto => Sys2Proof.Machine.execHomeCfg a save mode dir hvel htmo svel scur stime auto s
  | .home a mode sync => Sys2Proof.Machine.execHome a mode sync s
  | .homeAbort a => Sys2Proof.Machine.execHomeAbort a s
  | .posReply f => Sys2Proof.Machine.execPosReply f s
  | .reset => Sys2Proof.Machine.execReset s
  | .rxStart => Sys2Proof.Machine.execRxStart s
  | .rxHold => Sys2Proof.Machine.execRxHold s
  | .rxClockFault => Sys2Proof.Machine.execRxClockFault s
  | .rxConsume => Sys2Proof.Machine.execRxConsume s
  | .rxDrop => Sys2Proof.Machine.execRxDrop s
  | .rxComplete => Sys2Proof.Machine.execRxComplete s
  | .rxWait => Sys2Proof.Machine.execRxWait s

end Sys2Proof.Machine
end

