-- ==== Sys2Proof/Machine/Events.lean ====
section
/-! DEFINITION. One machine step: one action of the environment on one unit (60_exceptions.md R225). The next action is
the head of State's script, and a free value once the script is used up. -/
namespace Sys2Proof.Machine

/-- A read as a step: it has no side effect (20_memory.md R58), and one without a value stops (60_exceptions.md R211). -/
def Read.asStep {α : Type} (r : Read α) (s : State) : Host.Outcome State Fault Refusal :=
  match r with
  | .value _ => .next s
  | .refused e => .refused e

/-- One step of the Frame Receiver (41_frame_receiver.md R160, R170): sample the inputs once, then the one operation
they select. -/
def runPoll (p : Poll) (s : State) : Host.Outcome State Fault Refusal :=
  match frSelect (s.sample p) with
  | .value op => exec op.toInstr (s.sample p)
  | .refused e => .refused e

/-- The host reads an output (10_state.md R23, R27, R33). -/
def runRead (t : ReadTarget) (s : State) : Host.Outcome State Fault Refusal :=
  match t with
  | .bufCell i => (memRead i s).asStep s
  | .frame => (readFrame s).asStep s
  | .pdNeg | .pdMag | .pdAngle => (readReading s).asStep s

/-- One action of the environment. -/
def runEvent (e : EnvEvent) (s : State) : Host.Outcome State Fault Refusal :=
  match e with
  | .encode cmd => if cmd.isCommand then exec cmd s else .refused (.notACommand cmd.mnemonic)
  | .decode f => exec (.posReply f) s
  | .decodeFrame =>
    match readFrame s with
    | .value f => exec (.posReply f) s
    | .refused r => .refused r
  | .poll p => runPoll p s
  | .read t => runRead t s
  | .word bytes =>
    match decode s.params.expectedAddr bytes with
    | .ok i => exec i s
    | .error r => .refused (.undecodable r)

/-- The environment's next action. -/
def State.nextEvent (s : State) : EnvEvent :=
  match s.script with
  | e :: _ => e
  | [] => Config.freeEvent s.freeCount

/-- The state in which the next action runs: the action is off the script, or a free value has been drawn. -/
def State.afterFetch (s : State) : State :=
  match s.script with
  | _ :: rest => { s with script := rest }
  | [] => { s with freeCount := s.freeCount + 1 }

/-- One step. A recorded ModelFault has stopped the model (00_scope.md R14). -/
def stepOnce (s : State) : Host.Outcome State Fault Refusal :=
  match s.modelFault with
  | some r => .fault (.modelFault r)
  | none => runEvent s.nextEvent s.afterFetch

end Sys2Proof.Machine
end

