-- ==== Sys2Proof/Machine/Step.lean ====
section
/-! DEFINITION. The step of the machine, and how the host places an instruction so that the very next step runs it. -/
namespace Sys2Proof.Machine

/-- One step: `stepOnce`. -/
def step (s : State) : Host.Outcome State Fault Refusal := Sys2Proof.Machine.stepOnce s

/-- The state with the instruction of the opcode table's word `w` (of `nbits` bits) as the environment's next action,
given by the bytes of its encoding. -/
def State.withFetchWord (s : State) (nbits w : Nat) : State :=
  { s with script := .word (Sys2Proof.tableBytes nbits w) :: s.script }

end Sys2Proof.Machine
end

