-- ==== Sys2Proof/Machine/Script.lean ====
section
/-! DEFINITION. The transaction script (30_encoding.md R90) and the 1 ms schedule of `POLL until done` (R91), run on the
machine's own step. They script the ports for worked examples; no rule of the machine uses them. -/
namespace Sys2Proof.Machine

/-- A byte feed: the byte source offers each byte from its time on (R90). -/
abbrev Feed := List (Nat × Byte)

/-- One more byte in a feed in time order; bytes of one time stay in the order they are given in. -/
def Feed.insert (x : Nat × Byte) : Feed → Feed
  | [] => [x]
  | y :: feed => if y.1 ≤ x.1 then y :: Feed.insert x feed else x :: y :: feed

/-- A feed in time order. -/
def Feed.inTimeOrder (feed : Feed) : Feed := feed.foldl (fun sorted x => Feed.insert x sorted) []

/-- The bytes that are offered by time `t`. -/
def Feed.due (t : Nat) (feed : Feed) : List Byte := (feed.filter fun e => decide (e.1 ≤ t)).map Prod.snd

/-- The bytes that are offered only later than `t`. -/
def Feed.later (t : Nat) (feed : Feed) : Feed := feed.filter fun e => decide (t < e.1)

/-- The lines of a transaction script (R90), with the two lines that 95_test_vectors.md P4 uses beside them. -/
inductive ScriptLine where
  /-- `ENC <command>`. -/
  | enc (cmd : Instr)
  /-- `TX`: the external transport sends the encoder's frame. -/
  | tx
  /-- `RX.START @t`. -/
  | rxStart (t : Nat)
  /-- `FEED [(t, byte), ...]`. -/
  | feed (bytes : Feed)
  /-- `POLL until done`, watched for at most `ms` milliseconds: a reception may never complete (41_frame_receiver.md
  R175). -/
  | pollUntilDone (ms : Nat)
  /-- `DECODE`: the Position Decoder applied to the receiver's frame. -/
  | decode
  /-- `POLL until t=...` of 95_test_vectors.md P4: steps by the schedule up to and including time `t`, done or not. -/
  | pollThrough (t : Nat)
  /-- `rst @t` of 95_test_vectors.md P4: the host's abort (60_exceptions.md R225). -/
  | rst (t : Nat)
deriving DecidableEq, Repr

/-- A script in progress: the feed not yet offered, in time order; the next millisecond to poll; the frames the transport
has sent; and the machine. -/
structure Session where
  feed : Feed
  now : Nat
  sent : List (List Byte)
  machine : State
deriving DecidableEq, Repr

/-- The outcomes of a script. -/
abbrev Session.Result := Host.Outcome Session Fault Refusal

/-- Goes on after a next state; a fault or a refusal ends the script. -/
def andThen {α β : Type} (o : Host.Outcome α Fault Refusal) (k : α → Host.Outcome β Fault Refusal) :
    Host.Outcome β Fault Refusal :=
  match o with
  | .next x => k x
  | .fault r => .fault r
  | .refused r => .refused r

/-- One step of the machine with the given action next. -/
def Session.act (x : Session) (e : EnvEvent) : Session.Result :=
  andThen (step { x.machine with script := e :: x.machine.script }) fun s => .next { x with machine := s }

/-- One receiver step at time `t`: the bytes the feed offers by then have joined the byte source. -/
def Session.pollAt (x : Session) (rst start : Bool) (t : Nat) : Session.Result :=
  Session.act { x with feed := x.feed.later t }
    (.poll { rst := rst, start := start, arrivals := x.feed.due t, nowMs := t })

/-- Whether `POLL until done` stops here. -/
def Session.ends (x : Session) (untilDone : Bool) : Bool := untilDone && x.machine.rxDone

/-- `n` receiver steps at time `t`, at most one byte each. -/
def Session.polls (untilDone : Bool) (t : Nat) : Nat → Session → Session.Result
  | 0, x => .next x
  | n + 1, x =>
    if x.ends untilDone then .next x
    else andThen (x.pollAt false false t) (Session.polls untilDone t n)

/-- The steps of one millisecond: as many as bytes are then queued, and one further step (R91). -/
def Session.millisecond (untilDone : Bool) (x : Session) : Session.Result :=
  andThen (Session.polls untilDone x.now (x.machine.source.length + (x.feed.due x.now).length + 1) x)
    fun y => .next { y with now := x.now + 1 }

/-- The steps of `n` milliseconds, in increasing time. -/
def Session.milliseconds (untilDone : Bool) : Nat → Session → Session.Result
  | 0, x => .next x
  | n + 1, x =>
    if x.ends untilDone then .next x
    else andThen (x.millisecond untilDone) (Session.milliseconds untilDone n)

/-- One line of a script. A FEED line is already in the session's feed: it says when its bytes are offered, not that they
are offered at its place in the script. After START, polling goes on in START's own millisecond. -/
def Session.runLine (x : Session) : ScriptLine → Session.Result
  | .enc cmd => x.act (.encode cmd)
  | .tx => .next { x with sent := x.sent ++ [x.machine.ceFrame] }
  | .rxStart t => andThen (x.pollAt false true t) fun y => .next { y with now := t }
  | .feed _ => .next x
  | .pollUntilDone ms => x.milliseconds true ms
  | .decode => x.act .decodeFrame
  | .pollThrough t => x.milliseconds false (t + 1 - x.now)
  | .rst t => andThen (x.pollAt true false t) fun y => .next { y with now := t }

/-- The lines in order. -/
def Session.runLines : List ScriptLine → Session → Session.Result
  | [], x => .next x
  | l :: ls, x => andThen (x.runLine l) (Session.runLines ls)

/-- The bytes of a script's FEED lines. -/
def feedOf : List ScriptLine → Feed
  | [] => []
  | .feed bytes :: ls => bytes ++ feedOf ls
  | .enc _ :: ls | .tx :: ls | .rxStart _ :: ls | .pollUntilDone _ :: ls | .decode :: ls | .pollThrough _ :: ls
  | .rst _ :: ls => feedOf ls

/-- A transaction script run on the machine, every FEED byte offered from its own time on (R90). -/
def runTransaction (lines : List ScriptLine) (s : State) : Session.Result :=
  Session.runLines lines { feed := (feedOf lines).inTimeOrder, now := 0, sent := [], machine := s }

/-- `RX.START @t`, `FEED feed`, `POLL until done`, watched for `ms` milliseconds. -/
def reception (feed : Feed) (t ms : Nat) (s : State) : Session.Result :=
  runTransaction [.rxStart t, .feed feed, .pollUntilDone ms] s

end Sys2Proof.Machine
end

