-- ==== Sys2Proof/Safety.lean ====
section
/-! DEFINITION. What claims about the machine are said in: the invariants of its state, the duties of the environment,
runs of scripted actions, and the parts of the state a frame statement speaks of. -/
namespace Sys2Proof

open Machine

/-! ## Invariants -/

/-- The Frame Receiver's invariants (41_frame_receiver.md R172), with the buffer's canonical form, the cells that hold a
byte in every state (10_state.md R27, R34) and the timestamp, which has a value outside Idle (R28). -/
structure FrInv (s : State) : Prop where
  legal : s.params.legal
  memWf : Memory.wf s.rxBuf = true
  lenCap : s.rxLen ≤ s.params.rxCap
  overflowFull : s.rxOverflow = true → s.rxLen = s.params.rxCap
  cells : ∀ i, (Memory.get i s.rxBuf).isSome = true ↔ i < s.rxLen
  idleEmpty : s.rxState = .idle → s.rxLen = 0 ∧ s.rxOverflow = false
  stamp : s.rxLastMs.isSome = true ↔ s.rxState ≠ .idle

/-- The Command Encoder's outputs are a function of its inputs (10_state.md R20): the frame of the command driven last. -/
structure CeInv (s : State) : Prop where
  len : s.ceLen = s.ceFrame.length
  undriven : s.ceIn = none → s.ceFrame = []
  driven : ∀ i, s.ceIn = some i → i.isCommand = true ∧ encodeFor s.params.expectedAddr i = some s.ceFrame

/-- The Position Decoder's outputs always follow `pd_in` (42_position_decoder.md R198). -/
def PdInv (s : State) : Prop := s.pd = pdDecode s.params.expectedAddr s.pdIn

/-- The invariants of the whole block. -/
structure Inv (s : State) : Prop where
  fr : FrInv s
  ce : CeInv s
  pd : PdInv s

/-- The receiver holds the frame of the bytes `ds` consumed in this reception (41_frame_receiver.md R171): the first
`RX_CAP` of them are counted and stored in order, and the overflow flag says whether there were more. -/
structure FrameOf (ds : List Byte) (s : State) : Prop where
  len : s.rxLen = min ds.length s.params.rxCap
  cells : ∀ i, Memory.get i s.rxBuf = (ds.take s.params.rxCap)[i]?
  overflow : s.rxOverflow = true ↔ s.params.rxCap < ds.length

/-- The bytes consumed in the reception after the step from `s` to `t`: none after RESET and START, one more after a step
that took a byte, as before after every other receiver step and after every other action. -/
def bytesAfter (ds : List Byte) (s t : State) : List Byte :=
  match s.nextEvent with
  | .poll p =>
    if p.rst = true ∨ (p.start = true ∧ s.rxState ≠ .accumulating) then []
    else if t.rxTake = true then ds ++ [t.frIn.rxData]
    else ds
  | .encode _ | .decode _ | .decodeFrame | .read _ | .word _ => ds

/-! ## Frames of statements -/

/-- The Command Encoder's ports are the same. -/
structure SameCe (s t : State) : Prop where
  ceIn : t.ceIn = s.ceIn
  ceLen : t.ceLen = s.ceLen
  ceFrame : t.ceFrame = s.ceFrame

/-- The Position Decoder's ports are the same. -/
structure SamePd (s t : State) : Prop where
  pdIn : t.pdIn = s.pdIn
  pd : t.pd = s.pd

/-- The Frame Receiver's registers and ports are the same, every cell of its buffer included. -/
structure SameFr (s t : State) : Prop where
  frIn : t.frIn = s.frIn
  rxState : t.rxState = s.rxState
  rxLen : t.rxLen = s.rxLen
  cell : ∀ i, Memory.get i t.rxBuf = Memory.get i s.rxBuf
  rxBuf : t.rxBuf = s.rxBuf
  rxLastMs : t.rxLastMs = s.rxLastMs
  rxOverflow : t.rxOverflow = s.rxOverflow
  rxTake : t.rxTake = s.rxTake
  modelFault : t.modelFault = s.modelFault

/-- The parameters, the actions still to come and the count of free values are the same. -/
structure SameRest (s t : State) : Prop where
  params : t.params = s.params
  script : t.script = s.script
  freeCount : t.freeCount = s.freeCount

/-! ## Duties and runs -/

/-- The clock duty (60_exceptions.md R226) from a time on: `now_ms` never decreases. -/
def clockDuty : Nat → List Poll → Prop
  | _, [] => True
  | last, p :: ps => last ≤ p.nowMs ∧ clockDuty p.nowMs ps

/-- A byte is available at every step, when `queued` bytes wait before the first and each step takes one
(41_frame_receiver.md R175). -/
def alwaysAvailable : Nat → List Poll → Prop
  | _, [] => True
  | queued, p :: ps =>
    0 < queued + p.arrivals.length ∧ alwaysAvailable (queued + p.arrivals.length - 1) ps

/-- `k` steps of the machine, stopping at the first fault or refusal. -/
def runSteps : Nat → State → Host.Outcome State Fault Refusal
  | 0, s => .next s
  | k + 1, s =>
    match step s with
    | .next t => runSteps k t
    | .fault r => .fault r
    | .refused r => .refused r

/-- The run of a list of environment actions, one step of the machine for each. -/
def runScript (es : List EnvEvent) (s : State) : Host.Outcome State Fault Refusal :=
  runSteps es.length { s with script := es ++ s.script }

/-- The run of a list of receiver steps. -/
def runPolls (ps : List Poll) (s : State) : Host.Outcome State Fault Refusal := runScript (ps.map .poll) s

/-- The bytes the byte source has to give over a run of receiver steps: those queued, then the arrivals in order. -/
def offered (ps : List Poll) (s : State) : List Byte := s.source ++ ps.flatMap Poll.arrivals

/-! ## Values -/

/-- The number a binary64 bit pattern stands for, for the finite patterns (exponent field below 2047): IEEE 754's
interpretation of sign, exponent and significand (42_position_decoder.md R195, 93_implementation_defined.md G7). -/
def float64Value (b : BitVec 64) : Rat :=
  let sign : Rat := if b.toNat < 2 ^ 63 then 1 else -1
  let e : Nat := b.toNat / 2 ^ 52 % 2 ^ 11
  let f : Nat := b.toNat % 2 ^ 52
  if e = 0 then sign * (f : Rat) * 2 ^ (-1074 : Int)
  else sign * ((2 ^ 52 + f : Nat) : Rat) * 2 ^ ((e : Int) - 1075)

/-- The frame a command's execution puts on the port `ce_frame`; none if it answers no next state. -/
def ceFrameAfter (i : Instr) (s : State) : Option (List Byte) :=
  match exec i s with
  | .next t => some t.ceFrame
  | .fault _ => none
  | .refused _ => none

end Sys2Proof
end

