-- ==== Sys2Proof/Certificates/Slice0/Obligations.lean ====
section
/-! DEFINITION. The statements for the provers. A statement of an operation's result gives the whole next state as an
update of the state before, so it is the operation's completion and its frame as well: every field not named is
unchanged. Every command takes any integers; the value `mask w v` of a NEGATIVE integer is the spec's own decision
(92_eei_decisions.md D12, log entry 8). -/

open Sys2Proof Sys2Proof.Machine

/-! ## The Command Encoder -/

/-- 40_command_encoder.md R109-R115: the first seven read-parameter commands complete in every state with the three
bytes of their rule on `ce_frame`, 3 on `ce_len`, and nothing else changed. -/
def Obligations.ReadParamFrames1FTo33 : Prop :=
  ∀ (a : Int) (s : State),
    exec (.rdparam1F a) s =
        .next { s with ceIn := some (.rdparam1F a), ceFrame := [mask 8 a, 0x1F, 0x6B], ceLen := 3 } ∧
    exec (.rdparam20 a) s =
        .next { s with ceIn := some (.rdparam20 a), ceFrame := [mask 8 a, 0x20, 0x6B], ceLen := 3 } ∧
    exec (.rdparam21 a) s =
        .next { s with ceIn := some (.rdparam21 a), ceFrame := [mask 8 a, 0x21, 0x6B], ceLen := 3 } ∧
    exec (.rdparam24 a) s =
        .next { s with ceIn := some (.rdparam24 a), ceFrame := [mask 8 a, 0x24, 0x6B], ceLen := 3 } ∧
    exec (.rdparam27 a) s =
        .next { s with ceIn := some (.rdparam27 a), ceFrame := [mask 8 a, 0x27, 0x6B], ceLen := 3 } ∧
    exec (.rdparam31 a) s =
        .next { s with ceIn := some (.rdparam31 a), ceFrame := [mask 8 a, 0x31, 0x6B], ceLen := 3 } ∧
    exec (.rdparam33 a) s =
        .next { s with ceIn := some (.rdparam33 a), ceFrame := [mask 8 a, 0x33, 0x6B], ceLen := 3 }

/-- 40_command_encoder.md R116, R118-R122 (and RDPARAM_36's frame): the other seven read-parameter commands. -/
def Obligations.ReadParamFrames35To43 : Prop :=
  ∀ (a : Int) (s : State),
    exec (.rdparam35 a) s =
        .next { s with ceIn := some (.rdparam35 a), ceFrame := [mask 8 a, 0x35, 0x6B], ceLen := 3 } ∧
    exec (.rdparam36 a) s =
        .next { s with ceIn := some (.rdparam36 a), ceFrame := [mask 8 a, 0x36, 0x6B], ceLen := 3 } ∧
    exec (.rdparam37 a) s =
        .next { s with ceIn := some (.rdparam37 a), ceFrame := [mask 8 a, 0x37, 0x6B], ceLen := 3 } ∧
    exec (.rdparam3A a) s =
        .next { s with ceIn := some (.rdparam3A a), ceFrame := [mask 8 a, 0x3A, 0x6B], ceLen := 3 } ∧
    exec (.rdparam3B a) s =
        .next { s with ceIn := some (.rdparam3B a), ceFrame := [mask 8 a, 0x3B, 0x6B], ceLen := 3 } ∧
    exec (.rdparam42 a) s =
        .next { s with ceIn := some (.rdparam42 a), ceFrame := [mask 8 a, 0x42, 0x6B], ceLen := 3 } ∧
    exec (.rdparam43 a) s =
        .next { s with ceIn := some (.rdparam43 a), ceFrame := [mask 8 a, 0x43, 0x6B], ceLen := 3 }

/-- 40_command_encoder.md R130, R131, R137, R141: the four commands of format F4. -/
def Obligations.FixedSubCodeFrames : Prop :=
  ∀ (a : Int) (s : State),
    exec (.zeroPos a) s =
        .next { s with ceIn := some (.zeroPos a), ceFrame := [mask 8 a, 0x0A, 0x6D, 0x6B], ceLen := 4 } ∧
    exec (.clrStall a) s =
        .next { s with ceIn := some (.clrStall a), ceFrame := [mask 8 a, 0x0E, 0x52, 0x6B], ceLen := 4 } ∧
    exec (.syncRun a) s =
        .next { s with ceIn := some (.syncRun a), ceFrame := [mask 8 a, 0xFF, 0x66, 0x6B], ceLen := 4 } ∧
    exec (.homeAbort a) s =
        .next { s with ceIn := some (.homeAbort a), ceFrame := [mask 8 a, 0x9C, 0x48, 0x6B], ceLen := 4 }

/-- 40_command_encoder.md R132, R133, R136, R138, R140: the commands whose payload is flags and one-byte fields. -/
def Obligations.FlagAndModeFrames : Prop :=
  ∀ (a mode : Int) (save en sync : Bool) (s : State),
    exec (.setCtrlMode a save mode) s =
        .next { s with
          ceIn := some (.setCtrlMode a save mode)
          ceFrame := [mask 8 a, 0x46, 0x69, if save then 0x01 else 0x00, mask 8 mode, 0x6B]
          ceLen := 6 } ∧
    exec (.enable a en sync) s =
        .next { s with
          ceIn := some (.enable a en sync)
          ceFrame := [mask 8 a, 0xF3, 0xAB, if en then 0x01 else 0x00, if sync then 0x01 else 0x00, 0x6B]
          ceLen := 6 } ∧
    exec (.stop a sync) s =
        .next { s with
          ceIn := some (.stop a sync)
          ceFrame := [mask 8 a, 0xFE, 0x98, if sync then 0x01 else 0x00, 0x6B]
          ceLen := 5 } ∧
    exec (.setHomeZero a save) s =
        .next { s with
          ceIn := some (.setHomeZero a save)
          ceFrame := [mask 8 a, 0x93, 0x88, if save then 0x01 else 0x00, 0x6B]
          ceLen := 5 } ∧
    exec (.home a mode sync) s =
        .next { s with
          ceIn := some (.home a mode sync)
          ceFrame := [mask 8 a, 0x9A, mask 8 mode, if sync then 0x01 else 0x00, 0x6B]
          ceLen := 5 }

/-- 40_command_encoder.md R134 (VEL), byte for byte as 30_encoding.md R77 lays it out. -/
def Obligations.VelocityFrame : Prop :=
  ∀ (a dir velocity acc : Int) (sync : Bool) (s : State),
    exec (.vel a dir velocity acc sync) s =
      .next { s with
        ceIn := some (.vel a dir velocity acc sync)
        ceFrame :=
          [mask 8 a, 0xF6, mask 8 dir, (mask 16 velocity).extractLsb' 8 8, (mask 16 velocity).extractLsb' 0 8,
           mask 8 acc, if sync then 0x01 else 0x00, 0x6B]
        ceLen := 8 }

/-- POS, byte for byte as 30_encoding.md R78 lays it out. R135 gives the corner case of a negative pulse count by the
spec's decision D12 (log entry 8), so the statement is derived. -/
def Obligations.PositionFrame : Prop :=
  ∀ (a dir velocity acc pulses : Int) (rel sync : Bool) (s : State),
    exec (.pos a dir velocity acc pulses rel sync) s =
      .next { s with
        ceIn := some (.pos a dir velocity acc pulses rel sync)
        ceFrame :=
          [mask 8 a, 0xFD, mask 8 dir, (mask 16 velocity).extractLsb' 8 8, (mask 16 velocity).extractLsb' 0 8,
           mask 8 acc, (mask 32 pulses).extractLsb' 24 8, (mask 32 pulses).extractLsb' 16 8,
           (mask 32 pulses).extractLsb' 8 8, (mask 32 pulses).extractLsb' 0 8,
           if rel then 0x01 else 0x00, if sync then 0x01 else 0x00, 0x6B]
        ceLen := 13 }

/-- HOME_CFG, byte for byte as 30_encoding.md R79 lays it out. The widths of mode and dir are the spec's decision D15
(log entry 23), so the statement is derived. -/
def Obligations.HomeConfigFrame : Prop :=
  ∀ (a mode dir hvel htmo svel scur stime : Int) (save auto : Bool) (s : State),
    exec (.homeCfg a save mode dir hvel htmo svel scur stime auto) s =
      .next { s with
        ceIn := some (.homeCfg a save mode dir hvel htmo svel scur stime auto)
        ceFrame :=
          [mask 8 a, 0x4C, 0xAE, if save then 0x01 else 0x00, mask 8 mode, mask 8 dir,
           (mask 16 hvel).extractLsb' 8 8, (mask 16 hvel).extractLsb' 0 8,
           (mask 32 htmo).extractLsb' 24 8, (mask 32 htmo).extractLsb' 16 8,
           (mask 32 htmo).extractLsb' 8 8, (mask 32 htmo).extractLsb' 0 8,
           (mask 16 svel).extractLsb' 8 8, (mask 16 svel).extractLsb' 0 8,
           (mask 16 scur).extractLsb' 8 8, (mask 16 scur).extractLsb' 0 8,
           (mask 16 stime).extractLsb' 8 8, (mask 16 stime).extractLsb' 0 8,
           if auto then 0x01 else 0x00, 0x6B]
        ceLen := 20 }

/-- 40_command_encoder.md R100, R105, R106: every command answers a next state in EVERY state; its frame is one list that
no state changes; and nothing but the encoder's ports is written. -/
def Obligations.CommandsArePureAndTotal : Prop :=
  ∀ i : Instr, i.isCommand = true →
    ∃ f : List Byte, ∀ s : State,
      exec i s = .next { s with ceIn := some i, ceFrame := f, ceLen := f.length }

/-- The frame of the 26 commands: the receiver's registers, ports and every cell of its buffer, the decoder's ports, the
byte source, the parameters and the script are as before (10_state.md R20, 40_command_encoder.md R100). -/
def Obligations.CommandsLeaveOtherUnitsAlone : Prop :=
  ∀ (i : Instr) (s t : State), i.isCommand = true → exec i s = .next t →
    SameFr s t ∧ SamePd s t ∧ SameRest s t ∧ t.source = s.source

/-- 40_command_encoder.md R101: the address byte is the low byte of the address, and every value 0x00..0xFF is encoded
unchanged, 0x00 included. -/
def Obligations.AddressByteOfEveryCommand : Prop :=
  (∀ (i : Instr) (a : Int) (s : State), i.address = some a →
      ∃ t, exec i s = .next t ∧ t.ceFrame[0]? = some (mask 8 a)) ∧
  ∀ b : Byte, mask 8 (b.toNat : Int) = b

/-- 40_command_encoder.md R104: the last byte of every command's frame is 0x6B, at index `ce_len - 1`. -/
def Obligations.TerminatorOfEveryCommand : Prop :=
  ∀ (i : Instr) (s : State), i.isCommand = true →
    ∃ t, exec i s = .next t ∧ t.ceLen = t.ceFrame.length ∧ t.ceFrame[t.ceLen - 1]? = some 0x6B

/-- The length and function-code laws (40_command_encoder.md R150, R151 and 30_encoding.md R81, inferences of the spec
from its opcode map): byte 1 is the row's function code, `ce_len` is the length that code fixes, between 3 and 20, and
two commands with one function code are the same mnemonic. -/
def Obligations.FunctionCodeFixesLengthAndName : Prop :=
  (∀ (i : Instr) (s : State), i.isCommand = true →
      ∃ t c, exec i s = .next t ∧ funcCode i = some c ∧ t.ceFrame[1]? = some c ∧
        lengthByFunc c = some t.ceLen ∧ 3 ≤ t.ceLen ∧ t.ceLen ≤ 20) ∧
  ∀ (i j : Instr) (s t u : State), i.isCommand = true → j.isCommand = true →
      exec i s = .next t → exec j s = .next u → t.ceFrame[1]? = u.ceFrame[1]? → i.mnemonic = j.mnemonic

/-- Permissive parameters (40_command_encoder.md R102 with the decision D12 for negative integers, log entry 8): a
command with any integers puts the same frame on the port as the command with every integer reduced to its field. -/
def Obligations.IntegersAreReducedToTheirFields : Prop :=
  ∀ (i : Instr) (s : State), i.isCommand = true →
    ∃ t u, exec i s = .next t ∧ exec i.reduced s = .next u ∧ t.ceFrame = u.ceFrame

/-- The field round trip (40_command_encoder.md R107, an inference of the spec; D12 for negative integers, log entry 8):
a split field reassembles big-endian to the value modulo its width. -/
def Obligations.FieldsRoundTripModuloWidth : Prop :=
  ∀ v : Int,
    ((mask 8 v).toNat : Int) = v % 2 ^ 8 ∧
    (∃ p q, be16 v = [p, q] ∧ ((p.toNat * 2 ^ 8 + q.toNat : Nat) : Int) = v % 2 ^ 16) ∧
    ∃ p q r s, be32 v = [p, q, r, s] ∧
      (u32be p q r s).toNat = p.toNat * 2 ^ 24 + q.toNat * 2 ^ 16 + r.toNat * 2 ^ 8 + s.toNat ∧
      ((u32be p q r s).toNat : Int) = v % 2 ^ 32

/-- The command rules agree with the format layouts: the frame every command puts on `ce_frame`, written from
40_command_encoder.md R109-R141, is the encoder's frame, written from 30_encoding.md R70-R80. -/
def Obligations.CommandMeaningsAgreeWithFormats : Prop :=
  ∀ (i : Instr) (expected : Byte) (s : State), i.isCommand = true →
    ∃ t, exec i s = .next t ∧ encodeFor expected i = some t.ceFrame

/-! ## Encoding -/

/-- Decode and encode agree: every well-formed instruction that has an encoding is read back from it, with every operand
at every value its field carries (30_encoding.md R70-R83). -/
def Obligations.DecodeOfEncode : Prop :=
  ∀ (expected : Byte) (i : Instr) (f : List Byte),
    i.wfFor expected = true → encodeFor expected i = some f → decode expected f = .ok i

/-- Every accepted frame has one meaning: the instruction decoded is well-formed and its encoding is the frame. -/
def Obligations.EncodeOfDecode : Prop :=
  ∀ (expected : Byte) (f : List Byte) (i : Instr),
    decode expected f = .ok i → i.wfFor expected = true ∧ encodeFor expected i = some f

/-- A command with any integers is read back as the command with every integer reduced to its field
(40_command_encoder.md R102, D12, log entry 8). -/
def Obligations.DecodeOfAnyCommandIsReduced : Prop :=
  ∀ (expected : Byte) (i : Instr), i.isCommand = true →
    ∃ f, encodeFor expected i = some f ∧ decode expected f = .ok i.reduced

/-- Function codes outside the 26 rows are rejected by name (30_encoding.md R84, decision D14; the rejection is the
model's, log entry 17). -/
def Obligations.UnknownFunctionCodesAreRejected : Prop :=
  ∀ (expected a c : Byte) (rest : List Byte), lengthByFunc c = none →
    decode expected (a :: c :: rest) = .error (.unknownFunction c)

/-- Words written out bit by bit from the spec's encodings decode to the instructions they stand for. -/
def Obligations.WrittenOutFramesDecode : Prop :=
  decode 0x01 [0x01, 0x36, 0x6B] = .ok (.rdparam36 1) ∧
  decode 0x01 [0x01, 0xF6, 0x00, 0x00, 0xC8, 0x0A, 0x00, 0x6B] = .ok (.vel 1 0 200 10 false) ∧
  decode 0x01 [0x01, 0xFD, 0x00, 0x01, 0x2C, 0x05, 0x00, 0x00, 0x0C, 0x80, 0x01, 0x00, 0x6B] =
    .ok (.pos 1 0 300 5 3200 true false) ∧
  decode 0x01 [0x01, 0x9A, 0x03, 0x01, 0x6B] = .ok (.home 1 3 true) ∧
  decode 0x01 [0x01, 0x36, 0x00, 0x00, 0x00, 0x1C, 0x20] = .ok (.posReply [0x01, 0x36, 0x00, 0x00, 0x00, 0x1C, 0x20])

/-! ## The Frame Receiver, operation by operation -/

/-- START (41_frame_receiver.md R162 with the decisions D4 and D9, log entry 20): in Idle or Complete it clears the
reception's registers and the whole buffer, takes the clock as the timestamp and takes no byte. -/
def Obligations.StartBeginsReception : Prop :=
  ∀ s : State, s.frIn.rst = false → s.frIn.start = true → (s.rxState = .idle ∨ s.rxState = .complete) →
    exec .rxStart s =
      .next { s with
        rxState := .accumulating, rxLen := 0, rxBuf := [], rxOverflow := false
        rxLastMs := some s.frIn.nowMs, rxTake := false }

/-- HOLD (41_frame_receiver.md R164 with the decision D6, log entry 20): no register changes, no byte is taken. -/
def Obligations.HoldKeepsEverything : Prop :=
  ∀ s : State, s.frIn.rst = false → s.frIn.start = false → (s.rxState = .idle ∨ s.rxState = .complete) →
    exec .rxHold s = .next { s with rxTake := false }

/-- 41_frame_receiver.md R165 (STEP-CONSUME): the byte is stored at `rx_len`, whatever its value and however long the gap;
the count and the timestamp follow, and the byte source loses its head. The stored cell reads as the byte and every
other cell as before. -/
def Obligations.ConsumeStoresOneByte : Prop :=
  ∀ (s : State) (last : Nat), s.frIn.rst = false → s.rxState = .accumulating → s.rxLastMs = some last →
    last ≤ s.frIn.nowMs → s.frIn.rxAvail = true → s.rxLen < s.params.rxCap →
    ∃ m : Memory,
      exec .rxConsume s =
        .next { s with
          rxBuf := m, rxLen := s.rxLen + 1, rxLastMs := some s.frIn.nowMs
          source := s.source.tail, rxTake := true } ∧
      Memory.get s.rxLen m = some s.frIn.rxData ∧
      ∀ i, i ≠ s.rxLen → Memory.get i m = Memory.get i s.rxBuf

/-- STEP-DROP (41_frame_receiver.md R166 with the decisions D7 and D8, log entry 21): the byte is taken and discarded, the
overflow flag is set, the timestamp refreshed. -/
def Obligations.DropSetsOverflow : Prop :=
  ∀ (s : State) (last : Nat), s.frIn.rst = false → s.rxState = .accumulating → s.rxLastMs = some last →
    last ≤ s.frIn.nowMs → s.frIn.rxAvail = true → s.rxLen = s.params.rxCap →
    exec .rxDrop s =
      .next { s with
        rxOverflow := true, rxLastMs := some s.frIn.nowMs, source := s.source.tail, rxTake := true }

/-- 41_frame_receiver.md R167 (STEP-WAIT): with no byte available and a gap of at most `QUIET_MS`, exactly `QUIET_MS`
included, no register changes. -/
def Obligations.WaitKeepsRegisters : Prop :=
  ∀ (s : State) (last : Nat), s.frIn.rst = false → s.rxState = .accumulating → s.rxLastMs = some last →
    last ≤ s.frIn.nowMs → s.frIn.rxAvail = false → s.frIn.nowMs - last ≤ s.params.quietMs →
    exec .rxWait s = .next { s with rxTake := false }

/-- 41_frame_receiver.md R168 (STEP-COMPLETE): with no byte available and a gap of more than `QUIET_MS` the frame ends;
`rx_done` rises, `rx_busy` falls, and the frame and the overflow flag are kept. -/
def Obligations.CompleteEndsFrame : Prop :=
  ∀ (s : State) (last : Nat), s.frIn.rst = false → s.rxState = .accumulating → s.rxLastMs = some last →
    last ≤ s.frIn.nowMs → s.frIn.rxAvail = false → s.params.quietMs < s.frIn.nowMs - last →
    ∃ t, exec .rxComplete s = .next t ∧ t = { s with rxState := .complete, rxTake := false } ∧
      t.rxDone = true ∧ t.rxBusy = false

/-- CLOCK-FAULT (41_frame_receiver.md R169 with the decision D3; how the model goes on is log entry 11): a clock behind
the timestamp records a ModelFault unless one is recorded already; no register changes and no byte is taken, even if one
is available. -/
def Obligations.ClockFaultIsRecorded : Prop :=
  ∀ (s : State) (last : Nat), s.frIn.rst = false → s.rxState = .accumulating → s.rxLastMs = some last →
    s.frIn.nowMs < last →
    exec .rxClockFault s =
      .next { s with
        modelFault := some (s.modelFault.getD (.clockNotMonotonic s.frIn.nowMs last)), rxTake := false }

/-- RESET (70_reset_and_hazards.md R240 with the decision D18, log entry 24): in any state, whatever the other inputs;
`model_fault` is not changed, no byte is taken. -/
def Obligations.ResetClearsReceiver : Prop :=
  ∀ s : State, s.frIn.rst = true →
    exec .reset s =
      .next { s with
        rxState := .idle, rxLen := 0, rxBuf := [], rxLastMs := none, rxOverflow := false, rxTake := false }

/-- The frame of the receiver's eight operations: the encoder's and the decoder's ports, the sampled inputs, the
parameters, the script are as before; a cell of the buffer changes only in STEP-CONSUME, at `rx_len`, and in START and
RESET, which leave none with a value; and the byte source changes only by its head (10_state.md R20, R27, R58). -/
def Obligations.ReceiverOperationsFrame : Prop :=
  ∀ (op : FrOp) (s t : State), exec op.toInstr s = .next t →
    SameCe s t ∧ SamePd s t ∧ SameRest s t ∧ t.frIn = s.frIn ∧
    (t.source = if op = .consume ∨ op = .drop then s.source.tail else s.source) ∧
    ∀ i, Memory.get i t.rxBuf =
      if op = .start ∨ op = .reset then none
      else if op = .consume ∧ i = s.rxLen then some s.frIn.rxData
      else Memory.get i s.rxBuf

/-- Where the ports and registers select another step, a receiver operation does not happen (41_frame_receiver.md R160:
exactly one rule applies); that exec then answers a refusal is the model's choice, log entry 12. -/
def Obligations.UnselectedOperationIsRefused : Prop :=
  ∀ (op other : FrOp) (s : State), frSelect s = .value op → other ≠ op →
    exec other.toInstr s = .refused (.notSelected other.toInstr.mnemonic)

/-! ## The receiver's step -/

/-- The whole step in the priority order of 41_frame_receiver.md section 2 (R170). A step always answers a next state: for
CLOCK-FAULT that is the model's choice, since 00_scope.md R14 stops the model there (log entry 11). `last` is the
timestamp, which has a value in Accumulating. -/
def Obligations.PollFollowsPriority : Prop :=
  ∀ (p : Poll) (s : State) (last : Nat), (s.rxState = .accumulating → s.rxLastMs = some last) →
    (runPoll p s =
      if p.rst = true then exec .reset (s.sample p)
      else if s.rxState = .idle ∨ s.rxState = .complete then
        if p.start = true then exec .rxStart (s.sample p) else exec .rxHold (s.sample p)
      else if p.nowMs < last then exec .rxClockFault (s.sample p)
      else if s.source ++ p.arrivals ≠ [] ∧ s.rxLen < s.params.rxCap then exec .rxConsume (s.sample p)
      else if s.source ++ p.arrivals ≠ [] then exec .rxDrop (s.sample p)
      else if p.nowMs - last > s.params.quietMs then exec .rxComplete (s.sample p)
      else exec .rxWait (s.sample p)) ∧
    ∃ t, runPoll p s = .next t

/-- 10_state.md R31: `rx_take` of a step is the combination of state and inputs the rule gives; the byte taken is the
value on `rx_data`, the head of the queue; and bytes not taken stay in the byte source in order. -/
def Obligations.TakeRemovesExactlyTheHead : Prop :=
  ∀ (p : Poll) (s t : State), runPoll p s = .next t →
    (t.rxTake = true ↔
      s.rxState = .accumulating ∧ p.rst = false ∧ s.source ++ p.arrivals ≠ [] ∧
        ¬ ∃ last, s.rxLastMs = some last ∧ p.nowMs < last) ∧
    (t.rxTake = true → s.source ++ p.arrivals = t.frIn.rxData :: t.source) ∧
    (t.rxTake = false → t.source = s.source ++ p.arrivals)

/-- START while Accumulating has no effect (41_frame_receiver.md R163, decision D5, log entry 20): the step with it is the
step without it, but for the sampled input itself. -/
def Obligations.StartIsIgnoredWhileAccumulating : Prop :=
  ∀ (p : Poll) (s : State), s.rxState = .accumulating → s.rxLastMs.isSome = true →
    ∃ t u, runPoll { p with start := true } s = .next t ∧ runPoll { p with start := false } s = .next u ∧
      t = { u with frIn := { u.frIn with start := true } }

/-- `rx_data` is never read while `rx_avail = 0` (60_exceptions.md R227, decision D30, log entry 4): a receiver operation
does the same whatever value stands there. -/
def Obligations.IdleDataIsNeverRead : Prop :=
  ∀ (op : FrOp) (s t : State) (d : Byte), s.frIn.rxAvail = false → exec op.toInstr s = .next t →
    exec op.toInstr { s with frIn := { s.frIn with rxData := d } } =
      .next { t with frIn := { t.frIn with rxData := d } }

/-! ## Invariants and whole-machine rules -/

/-- The state after reset meets the block's invariants. The receiver's invariants are an inference of the spec
(41_frame_receiver.md R172) and its reset values the decision D18 (log entry 24). That the encoder's and the decoder's
ports meet theirs rests on the model's choice of no command with an empty frame (log entry 5) and of an empty `pd_in`
(log entry 6): the spec gives these units no state. -/
def Obligations.ResetStateMeetsInvariant : Prop := Inv State.reset

/-- Every step keeps the block's invariants: 41_frame_receiver.md R172's, the buffer's canonical form, and that the
outputs of the two combinational units follow their inputs. -/
def Obligations.StepKeepsBlockInvariant : Prop :=
  ∀ s t : State, Inv s → step s = .next t → Inv t

/-- The reset values of 10_state.md R34 and 70_reset_and_hazards.md R242 (decision D18, log entry 24). -/
def Obligations.ResetStateValues : Prop :=
  State.reset.rxState = .idle ∧ State.reset.rxLen = 0 ∧ (∀ i, Memory.get i State.reset.rxBuf = none) ∧
  State.reset.rxLastMs = none ∧ State.reset.rxOverflow = false ∧ State.reset.modelFault = none ∧
  State.reset.params = { quietMs := 100, rxCap := 128, expectedAddr := 0x01 }

/-- Which operations change each register, over all instructions: `rx_state` enters Accumulating only by START and leaves
it only by STEP-COMPLETE and RESET, enters Complete only by STEP-COMPLETE and leaves it only by START and RESET, leaves
Idle only by START and enters it only by RESET; `rx_len` changes only in START, STEP-CONSUME and RESET, `rx_buf` in the
same three, `rx_last_ms` in those and STEP-DROP; `rx_overflow` is set only by STEP-DROP and cleared only by START and
RESET; a ModelFault is raised only by CLOCK-FAULT and never cleared; the parameters never change (10_state.md R25-R30,
00_scope.md R8; decisions D3, D8, D10, D18). -/
def Obligations.OnlyTheseOperationsWriteRegisters : Prop :=
  ∀ (i : Instr) (s t : State), exec i s = .next t →
    (s.rxState = .accumulating → t.rxState ≠ .accumulating → i = .rxComplete ∨ i = .reset) ∧
    (s.rxState ≠ .accumulating → t.rxState = .accumulating → i = .rxStart) ∧
    (s.rxState ≠ .complete → t.rxState = .complete → i = .rxComplete) ∧
    (s.rxState = .complete → t.rxState ≠ .complete → i = .rxStart ∨ i = .reset) ∧
    (s.rxState = .idle → t.rxState ≠ .idle → i = .rxStart) ∧
    (s.rxState ≠ .idle → t.rxState = .idle → i = .reset) ∧
    (t.rxLen ≠ s.rxLen → i = .rxConsume ∨ i = .rxStart ∨ i = .reset) ∧
    (t.rxLastMs ≠ s.rxLastMs → i = .rxConsume ∨ i = .rxDrop ∨ i = .rxStart ∨ i = .reset) ∧
    (s.rxOverflow = false → t.rxOverflow = true → i = .rxDrop) ∧
    (s.rxOverflow = true → t.rxOverflow = false → i = .rxStart ∨ i = .reset) ∧
    (t.rxBuf ≠ s.rxBuf → i = .rxConsume ∨ i = .rxStart ∨ i = .reset) ∧
    (s.modelFault = none → t.modelFault ≠ none → i = .rxClockFault) ∧
    (∀ r, s.modelFault = some r → t.modelFault = some r) ∧
    t.params = s.params

/-- A recorded ModelFault has stopped the machine (00_scope.md R14; the model's choice of when, log entry 11). -/
def Obligations.RecordedFaultStopsMachine : Prop :=
  ∀ (s : State) (r : ModelFault), s.modelFault = some r → step s = .fault (.modelFault r)

/-- ModelFault F1 is the only fault (60_exceptions.md R214, decision D3): no instruction faults, and a step faults exactly
where a ModelFault is recorded, with that reason. That the step after the raising one is the one that faults is log entry
11. -/
def Obligations.ModelFaultIsTheOnlyFault : Prop :=
  (∀ (i : Instr) (s : State) (e : Fault), exec i s ≠ .fault e) ∧
  ∀ (s : State) (e : Fault), step s = .fault e ↔ ∃ r, s.modelFault = some r ∧ e = .modelFault r

/-- Under the clock duty no ModelFault is ever raised and the receiver never stops (60_exceptions.md R226, decision D3;
log entry 11): from a state that meets the invariants, any run of receiver steps in which `now_ms` never decreases, from
the timestamp on, answers a next state without a recorded fault. -/
def Obligations.ClockDutyMeansNoFault : Prop :=
  ∀ (ps : List Poll) (s : State) (t0 : Nat), Inv s → s.modelFault = none →
    (∀ last, s.rxLastMs = some last → last ≤ t0) → clockDuty t0 ps →
    ∃ t, runPolls ps s = .next t ∧ t.modelFault = none ∧ Inv t

/-! ## Receptions -/

/-- The contents of a frame, step by step (41_frame_receiver.md R171 and R177, inferences of the spec): if a state holds
the frame of the bytes `ds` consumed so far, every step that answers a next state, whatever the environment does, leaves
the frame of `bytesAfter`: none after START and RESET, one byte more after a step that took one, the same after every
other. After reset the receiver holds the frame of no bytes (decision D18, log entry 24). -/
def Obligations.StepKeepsFrameContents : Prop :=
  FrameOf [] State.reset ∧
  ∀ (ds : List Byte) (s t : State), FrameOf ds s → step s = .next t → FrameOf (bytesAfter ds s t) t

/-- The contents of a frame (41_frame_receiver.md R171 and R177, inferences of the spec): over any run of steps from a
freshly started reception, without reset or START, the receiver has consumed the first n bytes the byte source offered;
the rest are still there in order; `rx_len = min(n, RX_CAP)`; the cells hold the first bytes in arrival order; the
overflow flag says whether more than RX_CAP were consumed. -/
def Obligations.ReceptionStoresArrivalsInOrder : Prop :=
  ∀ (ps : List Poll) (s t : State),
    s.rxState = .accumulating → s.rxLen = 0 → s.rxBuf = [] → s.rxOverflow = false →
    (∀ p ∈ ps, p.rst = false ∧ p.start = false) → runPolls ps s = .next t →
    ∃ n, n ≤ (offered ps s).length ∧ t.source = (offered ps s).drop n ∧
      t.rxLen = min n s.params.rxCap ∧
      (∀ i, i < t.rxLen → Memory.get i t.rxBuf = (offered ps s)[i]?) ∧
      (∀ i, t.rxLen ≤ i → Memory.get i t.rxBuf = none) ∧
      (t.rxOverflow = true ↔ s.params.rxCap < n)

/-- 41_frame_receiver.md R175: with a byte available at every step the receiver stays in Accumulating for any number of
steps, taking a byte (to store or to drop it) at each; a step completes only with no byte available and a gap of more than `QUIET_MS`; and only `rst` leads out of a
reception otherwise. The runs keep the clock duty. -/
def Obligations.NoOverallDeadline : Prop :=
  (∀ (ps : List Poll) (s : State) (last : Nat), s.modelFault = none → s.rxState = .accumulating →
      s.rxLastMs = some last → (∀ p ∈ ps, p.rst = false) → clockDuty last ps →
      alwaysAvailable s.source.length ps →
      ∃ t, runPolls ps s = .next t ∧ t.rxState = .accumulating ∧ (ps ≠ [] → t.rxTake = true)) ∧
  ∀ (p : Poll) (s t : State), s.rxState = .accumulating → runPoll p s = .next t →
      (t.rxState = .complete → s.source ++ p.arrivals = [] ∧
        ∃ last, s.rxLastMs = some last ∧ s.params.quietMs < p.nowMs - last) ∧
      (t.rxState = .idle → p.rst = true)

/-- When a frame ends (41_frame_receiver.md R173 and R174, inferences of the spec): with the byte source empty and no
arrivals, the receiver waits through every step up to `QUIET_MS` after the last byte (or START) and completes at the
first step later than that, the frame unchanged. -/
def Obligations.SilenceEndsFrameAtFirstLaterStep : Prop :=
  ∀ (ps : List Poll) (q : Poll) (s : State) (last : Nat), s.modelFault = none → s.rxState = .accumulating →
    s.rxLastMs = some last → s.source = [] →
    (∀ p ∈ ps, p.rst = false ∧ p.arrivals = [] ∧ last ≤ p.nowMs ∧ p.nowMs ≤ last + s.params.quietMs) →
    q.rst = false → q.arrivals = [] → last + s.params.quietMs < q.nowMs →
    (∃ t, runPolls ps s = .next t ∧ t.rxState = .accumulating ∧ t.rxLen = s.rxLen ∧ t.rxBuf = s.rxBuf) ∧
    ∃ t, runPolls (ps ++ [q]) s = .next t ∧ t.rxState = .complete ∧ t.rxLen = s.rxLen ∧ t.rxBuf = s.rxBuf ∧
      t.rxOverflow = s.rxOverflow

/-! ## Reads -/

/-- The frame output (10_state.md R33, decision D29, log entry 22): in Complete it is the `rx_len` bytes of the buffer in
order; in Idle and Accumulating reading it is refused. Reads change nothing. -/
def Obligations.FrameOutputOnlyWhenComplete : Prop :=
  ∀ s : State, Inv s →
    (s.rxState = .complete → ∃ bs, readFrame s = .value bs ∧ bs.length = s.rxLen ∧
      (∀ i, i < s.rxLen → bs[i]? = Memory.get i s.rxBuf) ∧ runEvent (.read .frame) s = .next s) ∧
    (s.rxState ≠ .complete → runEvent (.read .frame) s = .refused (.frameNotComplete s.rxState))

/-- Reads of single cells (10_state.md R27, 60_exceptions.md R211 X1, decision D9; log entries 15, 22): a cell below
`rx_len` reads, one from `rx_len` up to RX_CAP - 1 is refused, and one from RX_CAP on, which does not exist, is refused
under the model's own name. -/
def Obligations.CellReadsByIndex : Prop :=
  ∀ (s : State) (i : Nat), Inv s →
    (i < s.rxLen → ∃ v, memRead i s = .value v ∧ runEvent (.read (.bufCell i)) s = .next s) ∧
    (s.rxLen ≤ i → i < s.params.rxCap →
      runEvent (.read (.bufCell i)) s = .refused (.unwrittenBufferCell i)) ∧
    (s.params.rxCap ≤ i → runEvent (.read (.bufCell i)) s = .refused (.noSuchCell i))

/-! ## The Position Decoder -/

/-- 42_position_decoder.md R198: DECODE, branch by branch, in every state, with `pd_in` and the decoder's outputs the only
changes. The reading is `readingOf` its sign and magnitude, which AngleIsExact and FloatViewIsExact describe. -/
def Obligations.DecodeBranches : Prop :=
  ∀ s : State,
    (∀ f : List Byte, f.length < 7 →
      exec (.posReply f) s = .next { s with pdIn := f, pd := .noReading .short }) ∧
    (∀ (b0 b1 b2 b3 b4 b5 b6 : Byte) (rest : List Byte), b0 ≠ s.params.expectedAddr ∨ b1 ≠ 0x36 →
      exec (.posReply (b0 :: b1 :: b2 :: b3 :: b4 :: b5 :: b6 :: rest)) s =
        .next { s with pdIn := b0 :: b1 :: b2 :: b3 :: b4 :: b5 :: b6 :: rest, pd := .noReading .wrongPrefix }) ∧
    ∀ (g m3 m2 m1 m0 : Byte) (rest : List Byte),
      ∃ r : Reading,
        exec (.posReply (s.params.expectedAddr :: 0x36 :: g :: m3 :: m2 :: m1 :: m0 :: rest)) s =
          .next { s with
            pdIn := s.params.expectedAddr :: 0x36 :: g :: m3 :: m2 :: m1 :: m0 :: rest, pd := .reading r } ∧
        (r.neg = true ↔ g ≠ 0x00) ∧
        r = readingOf r.neg r.mag ∧
        r.mag.toNat = m3.toNat * 2 ^ 24 + m2.toNat * 2 ^ 16 + m1.toNat * 2 ^ 8 + m0.toNat ∧
        angleDegrees r = (if g ≠ 0x00 then -1 else 1) * (r.mag.toNat : Rat) * 360 / 65536

/-- 42_position_decoder.md R194: the angle of every sign and magnitude is exactly `±mag * 360 / 65536`, and the same as
`±(mag * 45) / 2^13` with `mag * 45` below 2^38. -/
def Obligations.AngleIsExact : Prop :=
  ∀ (neg : Bool) (mag : BitVec 32),
    angleDegrees (readingOf neg mag) = (if neg then -1 else 1) * (mag.toNat : Rat) * 360 / 65536 ∧
    angleDegrees (readingOf neg mag) = (if neg then -1 else 1) * ((mag.toNat : Rat) * 45) / 2 ^ 13 ∧
    (readingOf neg mag).angleUnits = (if neg then -1 else 1) * ((mag.toNat * 45 : Nat) : Int) ∧
    mag.toNat * 45 < 2 ^ 38

/-- The scale (42_position_decoder.md R200, an inference of the spec): the upper half of the magnitude counts whole turns
and the lower half is the fraction of a turn. -/
def Obligations.MagnitudeIsTurnsAndFraction : Prop :=
  ∀ (neg : Bool) (mag : BitVec 32),
    angleDegrees (readingOf neg mag) =
      (if neg then -1 else 1) *
        (360 * ((mag.extractLsb' 16 16).toNat : Rat) + ((mag.extractLsb' 0 16).toNat : Rat) * 360 / 65536)

/-- The float64 view (42_position_decoder.md R195, an inference of the spec, with decision D16; log entry 18): the bit
pattern stands for exactly the rational angle, and a negative zero is the pattern of -0.0. -/
def Obligations.FloatViewIsExact : Prop :=
  (∀ (neg : Bool) (mag : BitVec 32), float64Value (readingOf neg mag).float64 = angleDegrees (readingOf neg mag)) ∧
  (readingOf true 0).float64 = 0x8000000000000000 ∧ (readingOf false 0).float64 = 0x0000000000000000

/-- 42_position_decoder.md R196: a frame of fewer than 7 bytes, the empty one included, or with another prefix gives no
reading, and every read of the reading's parts is refused, never answered with a zero. -/
def Obligations.NoReadingIsExplicit : Prop :=
  ∀ (f : List Byte) (s : State),
    (f.length < 7 ∨ f[0]? ≠ some s.params.expectedAddr ∨ f[1]? ≠ some 0x36) →
    ∃ t, exec (.posReply f) s = .next t ∧ t.pdValid = false ∧
      runEvent (.read .pdNeg) t = .refused .noReading ∧
      runEvent (.read .pdMag) t = .refused .noReading ∧
      runEvent (.read .pdAngle) t = .refused .noReading

/-- What DECODE ignores (42_position_decoder.md R197, decision D17, log entry 25): bytes from index 7 on, the value of the
sign byte beyond zero or not, and the receiver's `rx_overflow`. -/
def Obligations.DecodeIgnoresTrailingBytes : Prop :=
  (∀ (f rest : List Byte) (expected : Byte), f.length = 7 → pdDecode expected (f ++ rest) = pdDecode expected f) ∧
  (∀ (b0 b1 g h m3 m2 m1 m0 expected : Byte), g ≠ 0x00 → h ≠ 0x00 →
    pdDecode expected [b0, b1, g, m3, m2, m1, m0] = pdDecode expected [b0, b1, h, m3, m2, m1, m0]) ∧
  ∀ (f : List Byte) (s : State) (overflow : Bool),
    ∃ t u, exec (.posReply f) s = .next t ∧ exec (.posReply f) { s with rxOverflow := overflow } = .next u ∧
      t.pd = u.pd ∧ t.pd = pdDecode s.params.expectedAddr f

/-- 42_position_decoder.md R199: DECODE reads nothing but the byte list and `EXPECTED_ADDR` and writes nothing but its
outputs; the same list always gives the same result. -/
def Obligations.DecodeIsPure : Prop :=
  ∀ (f : List Byte) (expected : Byte), ∃ r : PdResult, ∀ s : State, s.params.expectedAddr = expected →
    exec (.posReply f) s = .next { s with pdIn := f, pd := r }

/-- The frame of DECODE: the encoder's ports, the receiver's registers, ports and every cell of its buffer, the byte
source, the parameters and the script are as before (10_state.md R20). -/
def Obligations.DecodeLeavesOtherUnitsAlone : Prop :=
  ∀ (f : List Byte) (s t : State), exec (.posReply f) s = .next t →
    SameCe s t ∧ SameFr s t ∧ SameRest s t ∧ t.source = s.source

/-- The position query and its reply (40_command_encoder.md R117, 30_encoding.md R89, 42_position_decoder.md R201,
inferences of the spec): RDPOS is RDPARAM_36, and a reply that echoes another address than `EXPECTED_ADDR` gives no
reading. -/
def Obligations.ReplyFromAnotherAddressIsNoReading : Prop :=
  ∀ (a : Int) (s : State) (reply : List Byte),
    exec (Instr.rdpos a) s = exec (.rdparam36 a) s ∧
    (mask 8 a ≠ s.params.expectedAddr →
      ∃ t, exec (.posReply (mask 8 a :: reply)) s = .next t ∧ t.pdValid = false)

/-! ## The step -/

/-- A step runs the decoded instruction: in a state without a recorded fault whose next action gives an instruction by
its bytes, step is exec of the instruction those bytes decode to, with the action off the script; bytes that are no
encoding are refused by name. The action is the model's own way in (log entry 17). -/
def Obligations.StepRunsDecodedInstruction : Prop :=
  ∀ (s : State) (bs : List Byte) (rest : List EnvEvent), s.modelFault = none → s.script = .word bs :: rest →
    (∀ i, decode s.params.expectedAddr bs = .ok i → step s = exec i { s with script := rest }) ∧
    ∀ e, decode s.params.expectedAddr bs = .error e → step s = .refused (.undecodable e)

/-- A step runs the environment's next action, one unit at a time (log entries 1 and 2): a command drives the encoder
(and what is no command is refused, log entry 19), a byte list or the frame output the decoder (a frame that is refused
refuses the step, log entry 22), a poll the receiver, a read answers the same state or is refused (log entry 28). With
nothing scripted the next action is the environment's free one, and a free value has been drawn (log entry 2). The bytes
of an instruction are StepRunsDecodedInstruction's. -/
def Obligations.StepRunsScriptedAction : Prop :=
  ∀ (s u : State) (rest : List EnvEvent), s.modelFault = none → u = { s with script := rest } →
    (∀ i, i.isCommand = true → s.script = .encode i :: rest → step s = exec i u) ∧
    (∀ f, s.script = .decode f :: rest → step s = exec (.posReply f) u) ∧
    (∀ f, readFrame s = .value f → s.script = .decodeFrame :: rest → step s = exec (.posReply f) u) ∧
    (∀ i, i.isCommand = false → s.script = .encode i :: rest → step s = .refused (.notACommand i.mnemonic)) ∧
    (∀ e, readFrame s = .refused e → s.script = .decodeFrame :: rest → step s = .refused e) ∧
    (∀ p, s.script = .poll p :: rest → step s = runPoll p u) ∧
    (∀ r, s.script = .read r :: rest → step s = runEvent (.read r) u ∧ ∀ t, step s = .next t → t = u) ∧
    (∀ i v, memRead i s = .value v → s.script = .read (.bufCell i) :: rest → step s = .next u) ∧
    (∀ i e, memRead i s = .refused e → s.script = .read (.bufCell i) :: rest → step s = .refused e) ∧
    (∀ f, readFrame s = .value f → s.script = .read .frame :: rest → step s = .next u) ∧
    (∀ e, readFrame s = .refused e → s.script = .read .frame :: rest → step s = .refused e) ∧
    (∀ r, r = .pdNeg ∨ r = .pdMag ∨ r = .pdAngle → s.script = .read r :: rest →
      step s = if s.pdValid then .next u else .refused .noReading) ∧
    (s.script = [] →
      step s = runEvent (Config.freeEvent s.freeCount) { s with freeCount := s.freeCount + 1 })

/-- The host's placement of a table word (log entry 16): the very next step runs the instruction the table's word decodes
to. -/
def Obligations.PlacedTableWordRunsNext : Prop :=
  ∀ (s : State) (nbits w : Nat) (i : Instr), s.modelFault = none → s.params.expectedAddr = 0x01 →
    decodeTableWord nbits w = some i → step (s.withFetchWord nbits w) = exec i s
end

