-- ==== Sys2Proof/Laws/Decode.lean ====
section
/-! SUPPORT. What the decoder can answer: a command of the Command Encoder or a position reply, never one of the operations
that the ports select. -/
namespace Sys2Proof

/-- Every instruction that the result answers is a command. -/
def YieldsCommand (r : Except DecodeError Instr) : Prop := ∀ i, r = .ok i → i.isCommand = true

theorem yieldsCommand_error (e : DecodeError) : YieldsCommand (.error e) := fun _ h => nomatch h

theorem yieldsCommand_ite {c : Prop} [Decidable c] {x y : Except DecodeError Instr} (hx : YieldsCommand x)
    (hy : YieldsCommand y) : YieldsCommand (if c then x else y) := by
  split
  · exact hx
  · exact hy

theorem yieldsCommand_closed (t : Byte) (i : Instr) (h : i.isCommand = true) : YieldsCommand (closed t i) :=
  yieldsCommand_ite (fun _ hj => by cases hj; exact h) (yieldsCommand_error _)

theorem yieldsCommand_withFlag (x : Byte) {k : Bool → Except DecodeError Instr} (h : ∀ b, YieldsCommand (k b)) :
    YieldsCommand (withFlag x k) :=
  yieldsCommand_ite (h true) (yieldsCommand_ite (h false) (yieldsCommand_error _))

theorem yieldsCommand_withSub (want got : Byte) {k : Except DecodeError Instr} (h : YieldsCommand k) :
    YieldsCommand (withSub want got k) := yieldsCommand_ite h (yieldsCommand_error _)

theorem yieldsCommand_decodeF3 {k : Int → Instr} (h : ∀ v, (k v).isCommand = true) (a : Byte) (rest : List Byte) :
    YieldsCommand (decodeF3 k a rest) := by
  unfold decodeF3
  split
  · exact yieldsCommand_closed _ _ (h _)
  · exact yieldsCommand_error _

theorem yieldsCommand_decodeF4 (sc : Byte) {k : Int → Instr} (h : ∀ v, (k v).isCommand = true) (a : Byte)
    (rest : List Byte) : YieldsCommand (decodeF4 sc k a rest) := by
  unfold decodeF4
  split
  · exact yieldsCommand_withSub _ _ (yieldsCommand_closed _ _ (h _))
  · exact yieldsCommand_error _

theorem yieldsCommand_decodeF5S (sc : Byte) {k : Int → Bool → Instr} (h : ∀ v b, (k v b).isCommand = true) (a : Byte)
    (rest : List Byte) : YieldsCommand (decodeF5S sc k a rest) := by
  unfold decodeF5S
  split
  · exact yieldsCommand_withSub _ _ (yieldsCommand_withFlag _ fun _ => yieldsCommand_closed _ _ (h _ _))
  · exact yieldsCommand_error _

theorem yieldsCommand_decodeSetCtrlMode (a : Byte) (rest : List Byte) : YieldsCommand (decodeSetCtrlMode a rest) := by
  unfold decodeSetCtrlMode
  split
  · exact yieldsCommand_withSub _ _ (yieldsCommand_withFlag _ fun _ => yieldsCommand_closed _ _ rfl)
  · exact yieldsCommand_error _

theorem yieldsCommand_decodeEnable (a : Byte) (rest : List Byte) : YieldsCommand (decodeEnable a rest) := by
  unfold decodeEnable
  split
  · exact yieldsCommand_withSub _ _ (yieldsCommand_withFlag _ fun _ =>
      yieldsCommand_withFlag _ fun _ => yieldsCommand_closed _ _ rfl)
  · exact yieldsCommand_error _

theorem yieldsCommand_decodeHome (a : Byte) (rest : List Byte) : YieldsCommand (decodeHome a rest) := by
  unfold decodeHome
  split
  · exact yieldsCommand_withFlag _ fun _ => yieldsCommand_closed _ _ rfl
  · exact yieldsCommand_error _

theorem yieldsCommand_decodeVel (a : Byte) (rest : List Byte) : YieldsCommand (decodeVel a rest) := by
  unfold decodeVel
  split
  · exact yieldsCommand_withFlag _ fun _ => yieldsCommand_closed _ _ rfl
  · exact yieldsCommand_error _

theorem yieldsCommand_decodePos (a : Byte) (rest : List Byte) : YieldsCommand (decodePos a rest) := by
  unfold decodePos
  split
  · exact yieldsCommand_withFlag _ fun _ => yieldsCommand_withFlag _ fun _ => yieldsCommand_closed _ _ rfl
  · exact yieldsCommand_error _

theorem yieldsCommand_decodeHomeCfg (a : Byte) (rest : List Byte) : YieldsCommand (decodeHomeCfg a rest) := by
  unfold decodeHomeCfg
  split
  · exact yieldsCommand_withSub _ _ (yieldsCommand_withFlag _ fun _ =>
      yieldsCommand_withFlag _ fun _ => yieldsCommand_closed _ _ rfl)
  · exact yieldsCommand_error _

theorem yieldsCommand_decodeCommand (a c : Byte) (rest : List Byte) : YieldsCommand (decodeCommand a c rest) := by
  unfold decodeCommand
  repeat'
    first
    | exact yieldsCommand_error _
    | exact yieldsCommand_decodeF3 (fun _ => rfl) _ _
    | exact yieldsCommand_decodeF4 _ (fun _ => rfl) _ _
    | exact yieldsCommand_decodeF5S _ (fun _ _ => rfl) _ _
    | exact yieldsCommand_decodeSetCtrlMode _ _
    | exact yieldsCommand_decodeEnable _ _
    | exact yieldsCommand_decodeHome _ _
    | exact yieldsCommand_decodeVel _ _
    | exact yieldsCommand_decodePos _ _
    | exact yieldsCommand_decodeHomeCfg _ _
    | refine yieldsCommand_ite ?_ ?_

/-- The decoder answers only commands and position replies; a position reply is the list it was given. -/
theorem decode_kinds (expected : Byte) (bs : List Byte) (i : Instr) (h : decode expected bs = .ok i) :
    i.isCommand = true ∨ i = .posReply bs := by
  unfold decode at h
  split at h
  · cases h
    exact .inr rfl
  · split at h
    · exact .inl (yieldsCommand_decodeCommand _ _ _ i h)
    · cases h

end Sys2Proof
end

