-- ==== Sys2Proof/Laws/Memory.lean ====
section
/-! SUPPORT. The laws of the receive buffer: reads after writes, the canonical form, and the reset state's memory. -/
namespace Sys2Proof.Machine

@[simp] theorem Memory.get_nil (i : Nat) : Memory.get i [] = none := rfl

@[simp] theorem Memory.get_put_same (i : Nat) (v : Byte) (m : Memory) : Memory.get i (Memory.put i v m) = some v := by
  induction m with
  | nil => simp [Memory.put, Memory.get]
  | cons c m ih =>
    simp only [Memory.put]
    split
    · simp [Memory.get]
    · split
      · simp [Memory.get]
      · rename_i _ h
        simp [Memory.get, ih, Ne.symm h]

/-- In a canonical memory no listed index is below the head's. -/
theorem Memory.get_of_lt_head (i : Nat) (c : Host.Cell) (m : Memory) (hw : Memory.wf (c :: m) = true) (h : i < c.1) :
    Memory.get i (c :: m) = none := by
  induction m generalizing c with
  | nil => simp [Memory.get]; omega
  | cons d m ih =>
    simp only [Memory.wf, Bool.and_eq_true, decide_eq_true_eq] at hw
    have := ih d hw.2 (by omega)
    simp only [Memory.get] at this ⊢
    rw [if_neg (by omega)]
    exact this

/-- A write leaves every other cell alone. -/
theorem Memory.get_put_other (i j : Nat) (v : Byte) (m : Memory) (h : i ≠ j) :
    Memory.get i (Memory.put j v m) = Memory.get i m := by
  induction m with
  | nil => simp [Memory.put, Memory.get]; omega
  | cons c m ih =>
    simp only [Memory.put]
    split
    · simp [Memory.get, Ne.symm h]
    · split
      · rename_i _ hj
        subst hj
        simp [Memory.get, Ne.symm h]
      · simp [Memory.get, ih]

/-- The head of a memory after a write is the smaller of the old head and the written index. -/
theorem Memory.wf_cons_put (c : Host.Cell) (i : Nat) (v : Byte) (m : Memory) (hc : c.1 < i)
    (hw : Memory.wf (c :: m) = true) (hp : Memory.wf (Memory.put i v m) = true) :
    Memory.wf (c :: Memory.put i v m) = true := by
  cases m with
  | nil => simp [Memory.put, Memory.wf]; omega
  | cons d m =>
    simp only [Memory.wf, Bool.and_eq_true, decide_eq_true_eq] at hw
    simp only [Memory.put] at hp ⊢
    split
    · rename_i hlt
      simp_all [Memory.wf]
    · split
      · rename_i hge heq
        simp_all [Memory.wf]
      · rename_i hge hne
        simp_all [Memory.wf]

/-- A write keeps the canonical form. -/
theorem Memory.wf_put (i : Nat) (v : Byte) (m : Memory) (hw : Memory.wf m = true) :
    Memory.wf (Memory.put i v m) = true := by
  induction m with
  | nil => rfl
  | cons c m ih =>
    have htail : Memory.wf m = true := by
      cases m with
      | nil => rfl
      | cons d m => simp only [Memory.wf, Bool.and_eq_true] at hw; exact hw.2
    by_cases h1 : i < c.1
    · simp [Memory.put, h1, Memory.wf, hw]
    · by_cases h2 : i = c.1
      · have : Memory.put i v (c :: m) = (i, v) :: m := by simp [Memory.put, h2]
        rw [this]
        cases m with
        | nil => rfl
        | cons d m => simp_all [Memory.wf]
      · have : Memory.put i v (c :: m) = c :: Memory.put i v m := by simp [Memory.put, h1, h2]
        rw [this]
        exact Memory.wf_cons_put c i v m (by omega) hw (ih htail)

/-- The empty buffer is canonical: START and RESET leave it so. -/
theorem Memory.wf_nil : Memory.wf [] = true := rfl

theorem State.reset_memory_wf : Memory.wf State.reset.rxBuf = true := rfl

/-- What a read of a cell answers. -/
theorem memRead_eq_value (i : Nat) (s : State) (v : Byte) :
    memRead i s = .value v ↔ i < s.params.rxCap ∧ Memory.get i s.rxBuf = some v := by
  unfold memRead
  by_cases h : s.params.rxCap ≤ i
  · simp [h]
  · simp only [h, if_false]
    cases Memory.get i s.rxBuf with
    | none => simp
    | some w => simp; omega

/-- What a run of reads answers: it succeeds with the listed bytes when every cell of the run reads. -/
theorem readCells_eq_value (s : State) (n : Nat) : ∀ (i : Nat) (bs : List Byte), bs.length = n →
    (∀ k, (h : k < bs.length) → memRead (i + k) s = .value bs[k]) → readCells s i n = .value bs := by
  induction n with
  | zero => intro i bs hl _; cases bs <;> simp_all [readCells]
  | succ n ih =>
    intro i bs hl hr
    cases bs with
    | nil => simp at hl
    | cons b bs =>
      have h0 := hr 0 (by simp)
      have ht := ih (i + 1) bs (by simpa using hl) (fun k hk => by
        have := hr (k + 1) (by simpa using hk)
        simpa [Nat.add_assoc, Nat.add_comm 1 k] using this)
      simp at h0
      simp [readCells, h0, ht]

end Sys2Proof.Machine
end

