-- ==== Sys2Proof/Laws/State.lean ====
section
/-! SUPPORT. One lemma per field per update of the state, so that no proof unfolds a record update. -/
namespace Sys2Proof.Machine

/-! ### the Command Encoder's outputs -/

@[simp] theorem State.emit_params (cmd : Instr) (f : List Byte) (s : State) : (s.emit cmd f).params = s.params := rfl
@[simp] theorem State.emit_ceIn (cmd : Instr) (f : List Byte) (s : State) : (s.emit cmd f).ceIn = some cmd := rfl
@[simp] theorem State.emit_ceLen (cmd : Instr) (f : List Byte) (s : State) : (s.emit cmd f).ceLen = f.length := rfl
@[simp] theorem State.emit_ceFrame (cmd : Instr) (f : List Byte) (s : State) : (s.emit cmd f).ceFrame = f := rfl
@[simp] theorem State.emit_frIn (cmd : Instr) (f : List Byte) (s : State) : (s.emit cmd f).frIn = s.frIn := rfl
@[simp] theorem State.emit_rxState (cmd : Instr) (f : List Byte) (s : State) : (s.emit cmd f).rxState = s.rxState := rfl
@[simp] theorem State.emit_rxLen (cmd : Instr) (f : List Byte) (s : State) : (s.emit cmd f).rxLen = s.rxLen := rfl
@[simp] theorem State.emit_rxBuf (cmd : Instr) (f : List Byte) (s : State) : (s.emit cmd f).rxBuf = s.rxBuf := rfl
@[simp] theorem State.emit_rxLastMs (cmd : Instr) (f : List Byte) (s : State) : (s.emit cmd f).rxLastMs = s.rxLastMs := rfl
@[simp] theorem State.emit_rxOverflow (cmd : Instr) (f : List Byte) (s : State) : (s.emit cmd f).rxOverflow = s.rxOverflow := rfl
@[simp] theorem State.emit_rxTake (cmd : Instr) (f : List Byte) (s : State) : (s.emit cmd f).rxTake = s.rxTake := rfl
@[simp] theorem State.emit_modelFault (cmd : Instr) (f : List Byte) (s : State) : (s.emit cmd f).modelFault = s.modelFault := rfl
@[simp] theorem State.emit_pdIn (cmd : Instr) (f : List Byte) (s : State) : (s.emit cmd f).pdIn = s.pdIn := rfl
@[simp] theorem State.emit_pd (cmd : Instr) (f : List Byte) (s : State) : (s.emit cmd f).pd = s.pd := rfl
@[simp] theorem State.emit_source (cmd : Instr) (f : List Byte) (s : State) : (s.emit cmd f).source = s.source := rfl
@[simp] theorem State.emit_script (cmd : Instr) (f : List Byte) (s : State) : (s.emit cmd f).script = s.script := rfl
@[simp] theorem State.emit_freeCount (cmd : Instr) (f : List Byte) (s : State) : (s.emit cmd f).freeCount = s.freeCount := rfl

/-! ### the Position Decoder's outputs -/

@[simp] theorem State.drivePd_params (f : List Byte) (r : PdResult) (s : State) : (s.drivePd f r).params = s.params := rfl
@[simp] theorem State.drivePd_ceIn (f : List Byte) (r : PdResult) (s : State) : (s.drivePd f r).ceIn = s.ceIn := rfl
@[simp] theorem State.drivePd_ceLen (f : List Byte) (r : PdResult) (s : State) : (s.drivePd f r).ceLen = s.ceLen := rfl
@[simp] theorem State.drivePd_ceFrame (f : List Byte) (r : PdResult) (s : State) : (s.drivePd f r).ceFrame = s.ceFrame := rfl
@[simp] theorem State.drivePd_frIn (f : List Byte) (r : PdResult) (s : State) : (s.drivePd f r).frIn = s.frIn := rfl
@[simp] theorem State.drivePd_rxState (f : List Byte) (r : PdResult) (s : State) : (s.drivePd f r).rxState = s.rxState := rfl
@[simp] theorem State.drivePd_rxLen (f : List Byte) (r : PdResult) (s : State) : (s.drivePd f r).rxLen = s.rxLen := rfl
@[simp] theorem State.drivePd_rxBuf (f : List Byte) (r : PdResult) (s : State) : (s.drivePd f r).rxBuf = s.rxBuf := rfl
@[simp] theorem State.drivePd_rxLastMs (f : List Byte) (r : PdResult) (s : State) : (s.drivePd f r).rxLastMs = s.rxLastMs := rfl
@[simp] theorem State.drivePd_rxOverflow (f : List Byte) (r : PdResult) (s : State) : (s.drivePd f r).rxOverflow = s.rxOverflow := rfl
@[simp] theorem State.drivePd_rxTake (f : List Byte) (r : PdResult) (s : State) : (s.drivePd f r).rxTake = s.rxTake := rfl
@[simp] theorem State.drivePd_modelFault (f : List Byte) (r : PdResult) (s : State) : (s.drivePd f r).modelFault = s.modelFault := rfl
@[simp] theorem State.drivePd_pdIn (f : List Byte) (r : PdResult) (s : State) : (s.drivePd f r).pdIn = f := rfl
@[simp] theorem State.drivePd_pd (f : List Byte) (r : PdResult) (s : State) : (s.drivePd f r).pd = r := rfl
@[simp] theorem State.drivePd_source (f : List Byte) (r : PdResult) (s : State) : (s.drivePd f r).source = s.source := rfl
@[simp] theorem State.drivePd_script (f : List Byte) (r : PdResult) (s : State) : (s.drivePd f r).script = s.script := rfl
@[simp] theorem State.drivePd_freeCount (f : List Byte) (r : PdResult) (s : State) : (s.drivePd f r).freeCount = s.freeCount := rfl

/-! ### a write of one cell -/

@[simp] theorem State.memWrite_params (i : Nat) (v : Byte) (s : State) : (s.memWrite i v).params = s.params := rfl
@[simp] theorem State.memWrite_ceIn (i : Nat) (v : Byte) (s : State) : (s.memWrite i v).ceIn = s.ceIn := rfl
@[simp] theorem State.memWrite_ceLen (i : Nat) (v : Byte) (s : State) : (s.memWrite i v).ceLen = s.ceLen := rfl
@[simp] theorem State.memWrite_ceFrame (i : Nat) (v : Byte) (s : State) : (s.memWrite i v).ceFrame = s.ceFrame := rfl
@[simp] theorem State.memWrite_frIn (i : Nat) (v : Byte) (s : State) : (s.memWrite i v).frIn = s.frIn := rfl
@[simp] theorem State.memWrite_rxState (i : Nat) (v : Byte) (s : State) : (s.memWrite i v).rxState = s.rxState := rfl
@[simp] theorem State.memWrite_rxLen (i : Nat) (v : Byte) (s : State) : (s.memWrite i v).rxLen = s.rxLen := rfl
@[simp] theorem State.memWrite_rxBuf (i : Nat) (v : Byte) (s : State) : (s.memWrite i v).rxBuf = Memory.put i v s.rxBuf := rfl
@[simp] theorem State.memWrite_rxLastMs (i : Nat) (v : Byte) (s : State) : (s.memWrite i v).rxLastMs = s.rxLastMs := rfl
@[simp] theorem State.memWrite_rxOverflow (i : Nat) (v : Byte) (s : State) : (s.memWrite i v).rxOverflow = s.rxOverflow := rfl
@[simp] theorem State.memWrite_rxTake (i : Nat) (v : Byte) (s : State) : (s.memWrite i v).rxTake = s.rxTake := rfl
@[simp] theorem State.memWrite_modelFault (i : Nat) (v : Byte) (s : State) : (s.memWrite i v).modelFault = s.modelFault := rfl
@[simp] theorem State.memWrite_pdIn (i : Nat) (v : Byte) (s : State) : (s.memWrite i v).pdIn = s.pdIn := rfl
@[simp] theorem State.memWrite_pd (i : Nat) (v : Byte) (s : State) : (s.memWrite i v).pd = s.pd := rfl
@[simp] theorem State.memWrite_source (i : Nat) (v : Byte) (s : State) : (s.memWrite i v).source = s.source := rfl
@[simp] theorem State.memWrite_script (i : Nat) (v : Byte) (s : State) : (s.memWrite i v).script = s.script := rfl
@[simp] theorem State.memWrite_freeCount (i : Nat) (v : Byte) (s : State) : (s.memWrite i v).freeCount = s.freeCount := rfl

/-! ### the ModelFault record -/

@[simp] theorem State.raiseModelFault_params (r : Option ModelFault) (s : State) : (s.raiseModelFault r).params = s.params := rfl
@[simp] theorem State.raiseModelFault_ceIn (r : Option ModelFault) (s : State) : (s.raiseModelFault r).ceIn = s.ceIn := rfl
@[simp] theorem State.raiseModelFault_ceLen (r : Option ModelFault) (s : State) : (s.raiseModelFault r).ceLen = s.ceLen := rfl
@[simp] theorem State.raiseModelFault_ceFrame (r : Option ModelFault) (s : State) : (s.raiseModelFault r).ceFrame = s.ceFrame := rfl
@[simp] theorem State.raiseModelFault_frIn (r : Option ModelFault) (s : State) : (s.raiseModelFault r).frIn = s.frIn := rfl
@[simp] theorem State.raiseModelFault_rxState (r : Option ModelFault) (s : State) : (s.raiseModelFault r).rxState = s.rxState := rfl
@[simp] theorem State.raiseModelFault_rxLen (r : Option ModelFault) (s : State) : (s.raiseModelFault r).rxLen = s.rxLen := rfl
@[simp] theorem State.raiseModelFault_rxBuf (r : Option ModelFault) (s : State) : (s.raiseModelFault r).rxBuf = s.rxBuf := rfl
@[simp] theorem State.raiseModelFault_rxLastMs (r : Option ModelFault) (s : State) : (s.raiseModelFault r).rxLastMs = s.rxLastMs := rfl
@[simp] theorem State.raiseModelFault_rxOverflow (r : Option ModelFault) (s : State) : (s.raiseModelFault r).rxOverflow = s.rxOverflow := rfl
@[simp] theorem State.raiseModelFault_rxTake (r : Option ModelFault) (s : State) : (s.raiseModelFault r).rxTake = s.rxTake := rfl
@[simp] theorem State.raiseModelFault_modelFault (r : Option ModelFault) (s : State) : (s.raiseModelFault r).modelFault = s.modelFault.or r := rfl
@[simp] theorem State.raiseModelFault_pdIn (r : Option ModelFault) (s : State) : (s.raiseModelFault r).pdIn = s.pdIn := rfl
@[simp] theorem State.raiseModelFault_pd (r : Option ModelFault) (s : State) : (s.raiseModelFault r).pd = s.pd := rfl
@[simp] theorem State.raiseModelFault_source (r : Option ModelFault) (s : State) : (s.raiseModelFault r).source = s.source := rfl
@[simp] theorem State.raiseModelFault_script (r : Option ModelFault) (s : State) : (s.raiseModelFault r).script = s.script := rfl
@[simp] theorem State.raiseModelFault_freeCount (r : Option ModelFault) (s : State) : (s.raiseModelFault r).freeCount = s.freeCount := rfl

/-! ### the removal of the byte source's head -/

@[simp] theorem State.takeByte_params (s : State) : (s.takeByte).params = s.params := rfl
@[simp] theorem State.takeByte_ceIn (s : State) : (s.takeByte).ceIn = s.ceIn := rfl
@[simp] theorem State.takeByte_ceLen (s : State) : (s.takeByte).ceLen = s.ceLen := rfl
@[simp] theorem State.takeByte_ceFrame (s : State) : (s.takeByte).ceFrame = s.ceFrame := rfl
@[simp] theorem State.takeByte_frIn (s : State) : (s.takeByte).frIn = s.frIn := rfl
@[simp] theorem State.takeByte_rxState (s : State) : (s.takeByte).rxState = s.rxState := rfl
@[simp] theorem State.takeByte_rxLen (s : State) : (s.takeByte).rxLen = s.rxLen := rfl
@[simp] theorem State.takeByte_rxBuf (s : State) : (s.takeByte).rxBuf = s.rxBuf := rfl
@[simp] theorem State.takeByte_rxLastMs (s : State) : (s.takeByte).rxLastMs = s.rxLastMs := rfl
@[simp] theorem State.takeByte_rxOverflow (s : State) : (s.takeByte).rxOverflow = s.rxOverflow := rfl
@[simp] theorem State.takeByte_rxTake (s : State) : (s.takeByte).rxTake = true := rfl
@[simp] theorem State.takeByte_modelFault (s : State) : (s.takeByte).modelFault = s.modelFault := rfl
@[simp] theorem State.takeByte_pdIn (s : State) : (s.takeByte).pdIn = s.pdIn := rfl
@[simp] theorem State.takeByte_pd (s : State) : (s.takeByte).pd = s.pd := rfl
@[simp] theorem State.takeByte_source (s : State) : (s.takeByte).source = s.source.tail := rfl
@[simp] theorem State.takeByte_script (s : State) : (s.takeByte).script = s.script := rfl
@[simp] theorem State.takeByte_freeCount (s : State) : (s.takeByte).freeCount = s.freeCount := rfl

/-! ### a step that takes no byte -/

@[simp] theorem State.takeNone_params (s : State) : (s.takeNone).params = s.params := rfl
@[simp] theorem State.takeNone_ceIn (s : State) : (s.takeNone).ceIn = s.ceIn := rfl
@[simp] theorem State.takeNone_ceLen (s : State) : (s.takeNone).ceLen = s.ceLen := rfl
@[simp] theorem State.takeNone_ceFrame (s : State) : (s.takeNone).ceFrame = s.ceFrame := rfl
@[simp] theorem State.takeNone_frIn (s : State) : (s.takeNone).frIn = s.frIn := rfl
@[simp] theorem State.takeNone_rxState (s : State) : (s.takeNone).rxState = s.rxState := rfl
@[simp] theorem State.takeNone_rxLen (s : State) : (s.takeNone).rxLen = s.rxLen := rfl
@[simp] theorem State.takeNone_rxBuf (s : State) : (s.takeNone).rxBuf = s.rxBuf := rfl
@[simp] theorem State.takeNone_rxLastMs (s : State) : (s.takeNone).rxLastMs = s.rxLastMs := rfl
@[simp] theorem State.takeNone_rxOverflow (s : State) : (s.takeNone).rxOverflow = s.rxOverflow := rfl
@[simp] theorem State.takeNone_rxTake (s : State) : (s.takeNone).rxTake = false := rfl
@[simp] theorem State.takeNone_modelFault (s : State) : (s.takeNone).modelFault = s.modelFault := rfl
@[simp] theorem State.takeNone_pdIn (s : State) : (s.takeNone).pdIn = s.pdIn := rfl
@[simp] theorem State.takeNone_pd (s : State) : (s.takeNone).pd = s.pd := rfl
@[simp] theorem State.takeNone_source (s : State) : (s.takeNone).source = s.source := rfl
@[simp] theorem State.takeNone_script (s : State) : (s.takeNone).script = s.script := rfl
@[simp] theorem State.takeNone_freeCount (s : State) : (s.takeNone).freeCount = s.freeCount := rfl

/-! ### START -/

@[simp] theorem State.beginReception_params (s : State) : (s.beginReception).params = s.params := rfl
@[simp] theorem State.beginReception_ceIn (s : State) : (s.beginReception).ceIn = s.ceIn := rfl
@[simp] theorem State.beginReception_ceLen (s : State) : (s.beginReception).ceLen = s.ceLen := rfl
@[simp] theorem State.beginReception_ceFrame (s : State) : (s.beginReception).ceFrame = s.ceFrame := rfl
@[simp] theorem State.beginReception_frIn (s : State) : (s.beginReception).frIn = s.frIn := rfl
@[simp] theorem State.beginReception_rxState (s : State) : (s.beginReception).rxState = .accumulating := rfl
@[simp] theorem State.beginReception_rxLen (s : State) : (s.beginReception).rxLen = 0 := rfl
@[simp] theorem State.beginReception_rxBuf (s : State) : (s.beginReception).rxBuf = [] := rfl
@[simp] theorem State.beginReception_rxLastMs (s : State) : (s.beginReception).rxLastMs = some s.frIn.nowMs := rfl
@[simp] theorem State.beginReception_rxOverflow (s : State) : (s.beginReception).rxOverflow = false := rfl
@[simp] theorem State.beginReception_rxTake (s : State) : (s.beginReception).rxTake = s.rxTake := rfl
@[simp] theorem State.beginReception_modelFault (s : State) : (s.beginReception).modelFault = s.modelFault := rfl
@[simp] theorem State.beginReception_pdIn (s : State) : (s.beginReception).pdIn = s.pdIn := rfl
@[simp] theorem State.beginReception_pd (s : State) : (s.beginReception).pd = s.pd := rfl
@[simp] theorem State.beginReception_source (s : State) : (s.beginReception).source = s.source := rfl
@[simp] theorem State.beginReception_script (s : State) : (s.beginReception).script = s.script := rfl
@[simp] theorem State.beginReception_freeCount (s : State) : (s.beginReception).freeCount = s.freeCount := rfl

/-! ### STEP-CONSUME -/

@[simp] theorem State.storeByte_params (s : State) : (s.storeByte).params = s.params := rfl
@[simp] theorem State.storeByte_ceIn (s : State) : (s.storeByte).ceIn = s.ceIn := rfl
@[simp] theorem State.storeByte_ceLen (s : State) : (s.storeByte).ceLen = s.ceLen := rfl
@[simp] theorem State.storeByte_ceFrame (s : State) : (s.storeByte).ceFrame = s.ceFrame := rfl
@[simp] theorem State.storeByte_frIn (s : State) : (s.storeByte).frIn = s.frIn := rfl
@[simp] theorem State.storeByte_rxState (s : State) : (s.storeByte).rxState = s.rxState := rfl
@[simp] theorem State.storeByte_rxLen (s : State) : (s.storeByte).rxLen = s.rxLen + 1 := rfl
@[simp] theorem State.storeByte_rxBuf (s : State) : (s.storeByte).rxBuf = Memory.put s.rxLen s.frIn.rxData s.rxBuf := rfl
@[simp] theorem State.storeByte_rxLastMs (s : State) : (s.storeByte).rxLastMs = some s.frIn.nowMs := rfl
@[simp] theorem State.storeByte_rxOverflow (s : State) : (s.storeByte).rxOverflow = s.rxOverflow := rfl
@[simp] theorem State.storeByte_rxTake (s : State) : (s.storeByte).rxTake = s.rxTake := rfl
@[simp] theorem State.storeByte_modelFault (s : State) : (s.storeByte).modelFault = s.modelFault := rfl
@[simp] theorem State.storeByte_pdIn (s : State) : (s.storeByte).pdIn = s.pdIn := rfl
@[simp] theorem State.storeByte_pd (s : State) : (s.storeByte).pd = s.pd := rfl
@[simp] theorem State.storeByte_source (s : State) : (s.storeByte).source = s.source := rfl
@[simp] theorem State.storeByte_script (s : State) : (s.storeByte).script = s.script := rfl
@[simp] theorem State.storeByte_freeCount (s : State) : (s.storeByte).freeCount = s.freeCount := rfl

/-! ### STEP-DROP -/

@[simp] theorem State.overflowByte_params (s : State) : (s.overflowByte).params = s.params := rfl
@[simp] theorem State.overflowByte_ceIn (s : State) : (s.overflowByte).ceIn = s.ceIn := rfl
@[simp] theorem State.overflowByte_ceLen (s : State) : (s.overflowByte).ceLen = s.ceLen := rfl
@[simp] theorem State.overflowByte_ceFrame (s : State) : (s.overflowByte).ceFrame = s.ceFrame := rfl
@[simp] theorem State.overflowByte_frIn (s : State) : (s.overflowByte).frIn = s.frIn := rfl
@[simp] theorem State.overflowByte_rxState (s : State) : (s.overflowByte).rxState = s.rxState := rfl
@[simp] theorem State.overflowByte_rxLen (s : State) : (s.overflowByte).rxLen = s.rxLen := rfl
@[simp] theorem State.overflowByte_rxBuf (s : State) : (s.overflowByte).rxBuf = s.rxBuf := rfl
@[simp] theorem State.overflowByte_rxLastMs (s : State) : (s.overflowByte).rxLastMs = some s.frIn.nowMs := rfl
@[simp] theorem State.overflowByte_rxOverflow (s : State) : (s.overflowByte).rxOverflow = true := rfl
@[simp] theorem State.overflowByte_rxTake (s : State) : (s.overflowByte).rxTake = s.rxTake := rfl
@[simp] theorem State.overflowByte_modelFault (s : State) : (s.overflowByte).modelFault = s.modelFault := rfl
@[simp] theorem State.overflowByte_pdIn (s : State) : (s.overflowByte).pdIn = s.pdIn := rfl
@[simp] theorem State.overflowByte_pd (s : State) : (s.overflowByte).pd = s.pd := rfl
@[simp] theorem State.overflowByte_source (s : State) : (s.overflowByte).source = s.source := rfl
@[simp] theorem State.overflowByte_script (s : State) : (s.overflowByte).script = s.script := rfl
@[simp] theorem State.overflowByte_freeCount (s : State) : (s.overflowByte).freeCount = s.freeCount := rfl

/-! ### STEP-COMPLETE -/

@[simp] theorem State.finishReception_params (s : State) : (s.finishReception).params = s.params := rfl
@[simp] theorem State.finishReception_ceIn (s : State) : (s.finishReception).ceIn = s.ceIn := rfl
@[simp] theorem State.finishReception_ceLen (s : State) : (s.finishReception).ceLen = s.ceLen := rfl
@[simp] theorem State.finishReception_ceFrame (s : State) : (s.finishReception).ceFrame = s.ceFrame := rfl
@[simp] theorem State.finishReception_frIn (s : State) : (s.finishReception).frIn = s.frIn := rfl
@[simp] theorem State.finishReception_rxState (s : State) : (s.finishReception).rxState = .complete := rfl
@[simp] theorem State.finishReception_rxLen (s : State) : (s.finishReception).rxLen = s.rxLen := rfl
@[simp] theorem State.finishReception_rxBuf (s : State) : (s.finishReception).rxBuf = s.rxBuf := rfl
@[simp] theorem State.finishReception_rxLastMs (s : State) : (s.finishReception).rxLastMs = s.rxLastMs := rfl
@[simp] theorem State.finishReception_rxOverflow (s : State) : (s.finishReception).rxOverflow = s.rxOverflow := rfl
@[simp] theorem State.finishReception_rxTake (s : State) : (s.finishReception).rxTake = s.rxTake := rfl
@[simp] theorem State.finishReception_modelFault (s : State) : (s.finishReception).modelFault = s.modelFault := rfl
@[simp] theorem State.finishReception_pdIn (s : State) : (s.finishReception).pdIn = s.pdIn := rfl
@[simp] theorem State.finishReception_pd (s : State) : (s.finishReception).pd = s.pd := rfl
@[simp] theorem State.finishReception_source (s : State) : (s.finishReception).source = s.source := rfl
@[simp] theorem State.finishReception_script (s : State) : (s.finishReception).script = s.script := rfl
@[simp] theorem State.finishReception_freeCount (s : State) : (s.finishReception).freeCount = s.freeCount := rfl

/-! ### RESET -/

@[simp] theorem State.resetReceiver_params (s : State) : (s.resetReceiver).params = s.params := rfl
@[simp] theorem State.resetReceiver_ceIn (s : State) : (s.resetReceiver).ceIn = s.ceIn := rfl
@[simp] theorem State.resetReceiver_ceLen (s : State) : (s.resetReceiver).ceLen = s.ceLen := rfl
@[simp] theorem State.resetReceiver_ceFrame (s : State) : (s.resetReceiver).ceFrame = s.ceFrame := rfl
@[simp] theorem State.resetReceiver_frIn (s : State) : (s.resetReceiver).frIn = s.frIn := rfl
@[simp] theorem State.resetReceiver_rxState (s : State) : (s.resetReceiver).rxState = .idle := rfl
@[simp] theorem State.resetReceiver_rxLen (s : State) : (s.resetReceiver).rxLen = 0 := rfl
@[simp] theorem State.resetReceiver_rxBuf (s : State) : (s.resetReceiver).rxBuf = [] := rfl
@[simp] theorem State.resetReceiver_rxLastMs (s : State) : (s.resetReceiver).rxLastMs = none := rfl
@[simp] theorem State.resetReceiver_rxOverflow (s : State) : (s.resetReceiver).rxOverflow = false := rfl
@[simp] theorem State.resetReceiver_rxTake (s : State) : (s.resetReceiver).rxTake = s.rxTake := rfl
@[simp] theorem State.resetReceiver_modelFault (s : State) : (s.resetReceiver).modelFault = s.modelFault := rfl
@[simp] theorem State.resetReceiver_pdIn (s : State) : (s.resetReceiver).pdIn = s.pdIn := rfl
@[simp] theorem State.resetReceiver_pd (s : State) : (s.resetReceiver).pd = s.pd := rfl
@[simp] theorem State.resetReceiver_source (s : State) : (s.resetReceiver).source = s.source := rfl
@[simp] theorem State.resetReceiver_script (s : State) : (s.resetReceiver).script = s.script := rfl
@[simp] theorem State.resetReceiver_freeCount (s : State) : (s.resetReceiver).freeCount = s.freeCount := rfl

/-! ### CLOCK-FAULT -/

@[simp] theorem State.raiseClockFault_params (s : State) : s.raiseClockFault.params = s.params := rfl
@[simp] theorem State.raiseClockFault_ceIn (s : State) : s.raiseClockFault.ceIn = s.ceIn := rfl
@[simp] theorem State.raiseClockFault_ceLen (s : State) : s.raiseClockFault.ceLen = s.ceLen := rfl
@[simp] theorem State.raiseClockFault_ceFrame (s : State) : s.raiseClockFault.ceFrame = s.ceFrame := rfl
@[simp] theorem State.raiseClockFault_frIn (s : State) : s.raiseClockFault.frIn = s.frIn := rfl
@[simp] theorem State.raiseClockFault_rxState (s : State) : s.raiseClockFault.rxState = s.rxState := rfl
@[simp] theorem State.raiseClockFault_rxLen (s : State) : s.raiseClockFault.rxLen = s.rxLen := rfl
@[simp] theorem State.raiseClockFault_rxBuf (s : State) : s.raiseClockFault.rxBuf = s.rxBuf := rfl
@[simp] theorem State.raiseClockFault_rxLastMs (s : State) : s.raiseClockFault.rxLastMs = s.rxLastMs := rfl
@[simp] theorem State.raiseClockFault_rxOverflow (s : State) : s.raiseClockFault.rxOverflow = s.rxOverflow := rfl
@[simp] theorem State.raiseClockFault_rxTake (s : State) : s.raiseClockFault.rxTake = s.rxTake := rfl
@[simp] theorem State.raiseClockFault_pdIn (s : State) : s.raiseClockFault.pdIn = s.pdIn := rfl
@[simp] theorem State.raiseClockFault_pd (s : State) : s.raiseClockFault.pd = s.pd := rfl
@[simp] theorem State.raiseClockFault_source (s : State) : s.raiseClockFault.source = s.source := rfl
@[simp] theorem State.raiseClockFault_script (s : State) : s.raiseClockFault.script = s.script := rfl
@[simp] theorem State.raiseClockFault_freeCount (s : State) : s.raiseClockFault.freeCount = s.freeCount := rfl
@[simp] theorem State.raiseClockFault_modelFault (s : State) : s.raiseClockFault.modelFault =
    s.modelFault.or (s.rxLastMs.map fun last => .clockNotMonotonic s.frIn.nowMs last) := rfl

/-! ### the sampling of a step's inputs -/

@[simp] theorem State.sample_params (p : Poll) (s : State) : (s.sample p).params = s.params := by
  unfold State.sample; split <;> rfl
@[simp] theorem State.sample_ceIn (p : Poll) (s : State) : (s.sample p).ceIn = s.ceIn := by
  unfold State.sample; split <;> rfl
@[simp] theorem State.sample_ceLen (p : Poll) (s : State) : (s.sample p).ceLen = s.ceLen := by
  unfold State.sample; split <;> rfl
@[simp] theorem State.sample_ceFrame (p : Poll) (s : State) : (s.sample p).ceFrame = s.ceFrame := by
  unfold State.sample; split <;> rfl
@[simp] theorem State.sample_rxState (p : Poll) (s : State) : (s.sample p).rxState = s.rxState := by
  unfold State.sample; split <;> rfl
@[simp] theorem State.sample_rxLen (p : Poll) (s : State) : (s.sample p).rxLen = s.rxLen := by
  unfold State.sample; split <;> rfl
@[simp] theorem State.sample_rxBuf (p : Poll) (s : State) : (s.sample p).rxBuf = s.rxBuf := by
  unfold State.sample; split <;> rfl
@[simp] theorem State.sample_rxLastMs (p : Poll) (s : State) : (s.sample p).rxLastMs = s.rxLastMs := by
  unfold State.sample; split <;> rfl
@[simp] theorem State.sample_rxOverflow (p : Poll) (s : State) : (s.sample p).rxOverflow = s.rxOverflow := by
  unfold State.sample; split <;> rfl
@[simp] theorem State.sample_rxTake (p : Poll) (s : State) : (s.sample p).rxTake = s.rxTake := by
  unfold State.sample; split <;> rfl
@[simp] theorem State.sample_modelFault (p : Poll) (s : State) : (s.sample p).modelFault = s.modelFault := by
  unfold State.sample; split <;> rfl
@[simp] theorem State.sample_pdIn (p : Poll) (s : State) : (s.sample p).pdIn = s.pdIn := by
  unfold State.sample; split <;> rfl
@[simp] theorem State.sample_pd (p : Poll) (s : State) : (s.sample p).pd = s.pd := by
  unfold State.sample; split <;> rfl
@[simp] theorem State.sample_script (p : Poll) (s : State) : (s.sample p).script = s.script := by
  unfold State.sample; split <;> rfl
@[simp] theorem State.sample_source (p : Poll) (s : State) : (s.sample p).source = s.source ++ p.arrivals := by
  unfold State.sample; split <;> simp_all
@[simp] theorem State.sample_rst (p : Poll) (s : State) : (s.sample p).frIn.rst = p.rst := by
  unfold State.sample; split <;> rfl
@[simp] theorem State.sample_start (p : Poll) (s : State) : (s.sample p).frIn.start = p.start := by
  unfold State.sample; split <;> rfl
@[simp] theorem State.sample_nowMs (p : Poll) (s : State) : (s.sample p).frIn.nowMs = p.nowMs := by
  unfold State.sample; split <;> rfl
/-- A byte is available exactly when the queue, arrivals included, is not empty. -/
@[simp] theorem State.sample_rxAvail (p : Poll) (s : State) :
    (s.sample p).frIn.rxAvail = !(s.source ++ p.arrivals).isEmpty := by
  unfold State.sample; split <;> simp_all
/-- The byte shown is the queue's head. -/
theorem State.sample_rxData (p : Poll) (s : State) (b : Byte) (q : List Byte) (h : s.source ++ p.arrivals = b :: q) :
    (s.sample p).frIn.rxData = b := by
  unfold State.sample; rw [h]

/-! ### the fetch of the environment's next action -/

@[simp] theorem State.afterFetch_params (s : State) : s.afterFetch.params = s.params := by
  unfold State.afterFetch; split <;> rfl
@[simp] theorem State.afterFetch_ceIn (s : State) : s.afterFetch.ceIn = s.ceIn := by
  unfold State.afterFetch; split <;> rfl
@[simp] theorem State.afterFetch_ceLen (s : State) : s.afterFetch.ceLen = s.ceLen := by
  unfold State.afterFetch; split <;> rfl
@[simp] theorem State.afterFetch_ceFrame (s : State) : s.afterFetch.ceFrame = s.ceFrame := by
  unfold State.afterFetch; split <;> rfl
@[simp] theorem State.afterFetch_frIn (s : State) : s.afterFetch.frIn = s.frIn := by
  unfold State.afterFetch; split <;> rfl
@[simp] theorem State.afterFetch_rxState (s : State) : s.afterFetch.rxState = s.rxState := by
  unfold State.afterFetch; split <;> rfl
@[simp] theorem State.afterFetch_rxLen (s : State) : s.afterFetch.rxLen = s.rxLen := by
  unfold State.afterFetch; split <;> rfl
@[simp] theorem State.afterFetch_rxBuf (s : State) : s.afterFetch.rxBuf = s.rxBuf := by
  unfold State.afterFetch; split <;> rfl
@[simp] theorem State.afterFetch_rxLastMs (s : State) : s.afterFetch.rxLastMs = s.rxLastMs := by
  unfold State.afterFetch; split <;> rfl
@[simp] theorem State.afterFetch_rxOverflow (s : State) : s.afterFetch.rxOverflow = s.rxOverflow := by
  unfold State.afterFetch; split <;> rfl
@[simp] theorem State.afterFetch_rxTake (s : State) : s.afterFetch.rxTake = s.rxTake := by
  unfold State.afterFetch; split <;> rfl
@[simp] theorem State.afterFetch_modelFault (s : State) : s.afterFetch.modelFault = s.modelFault := by
  unfold State.afterFetch; split <;> rfl
@[simp] theorem State.afterFetch_pdIn (s : State) : s.afterFetch.pdIn = s.pdIn := by
  unfold State.afterFetch; split <;> rfl
@[simp] theorem State.afterFetch_pd (s : State) : s.afterFetch.pd = s.pd := by
  unfold State.afterFetch; split <;> rfl
@[simp] theorem State.afterFetch_source (s : State) : s.afterFetch.source = s.source := by
  unfold State.afterFetch; split <;> rfl
@[simp] theorem State.afterFetch_script (s : State) : s.afterFetch.script = s.script.tail := by
  unfold State.afterFetch; split <;> simp_all
/-- A scripted action draws no free value. -/
theorem State.afterFetch_freeCount (s : State) (e : EnvEvent) (es : List EnvEvent) (h : s.script = e :: es) :
    s.afterFetch.freeCount = s.freeCount := by
  unfold State.afterFetch; rw [h]
/-- The next action of a script is its head. -/
theorem State.nextEvent_cons (s : State) (e : EnvEvent) (es : List EnvEvent) (h : s.script = e :: es) :
    s.nextEvent = e := by
  unfold State.nextEvent; rw [h]

end Sys2Proof.Machine
end

