-- ==== Sys2Proof/Laws/Step.lean ====
section
/-! SUPPORT. What the shared operations and the step can do, said once: which operation the ports select, when a
selected operation answers, what a command and the other instructions answer, and what a step does. -/
namespace Sys2Proof.Machine

/-- An operation answers a next state exactly where it is selected, and then its effect. -/
theorem whenSelected_next (op : FrOp) (s t u : State) :
    whenSelected op s t = .next u ↔ frSelect s = .value op ∧ u = t := by
  unfold whenSelected
  cases h : frSelect s with
  | value o =>
    by_cases ho : o = op
    · simp [ho, eq_comm]
    · simp [ho]
  | refused r => simp

theorem whenSelected_of_selected (op : FrOp) (s t : State) (h : frSelect s = .value op) :
    whenSelected op s t = .next t := (whenSelected_next op s t t).mpr ⟨h, rfl⟩

/-- The selection, by cases of the ports and registers. -/
theorem frSelect_reset (s : State) (h : s.frIn.rst = true) : frSelect s = .value .reset := by simp [frSelect, h]

theorem frSelect_start (s : State) (hr : s.frIn.rst = false) (hs : s.rxState = .idle ∨ s.rxState = .complete)
    (h : s.frIn.start = true) : frSelect s = .value .start := by simp [frSelect, hr, hs, h]

theorem frSelect_hold (s : State) (hr : s.frIn.rst = false) (hs : s.rxState = .idle ∨ s.rxState = .complete)
    (h : s.frIn.start = false) : frSelect s = .value .hold := by simp [frSelect, hr, hs, h]

/-- In Accumulating with a timestamp the selection is the tail of R170's chain. -/
theorem frSelect_accumulating (s : State) (last : Nat) (hr : s.frIn.rst = false) (hs : s.rxState = .accumulating)
    (hl : s.rxLastMs = some last) :
    frSelect s = .value (
      if s.frIn.nowMs < last then .clockFault
      else if s.frIn.rxAvail && decide (s.rxLen < s.params.rxCap) then .consume
      else if s.frIn.rxAvail then .drop
      else if quietExceeded s.params s.frIn.nowMs last then .complete
      else .wait) := by
  simp only [frSelect, hr, hs, hl]
  simp only [Bool.false_eq_true, if_false, reduceCtorEq, or_self]
  repeat' split
  all_goals rfl

/-- Some operation is selected unless the timestamp is missing in Accumulating. -/
theorem frSelect_total (s : State) (h : s.rxState = .accumulating → s.rxLastMs.isSome = true) :
    ∃ op, frSelect s = .value op := by
  by_cases hr : s.frIn.rst = true
  · exact ⟨_, frSelect_reset s hr⟩
  · have hr : s.frIn.rst = false := by simpa using hr
    cases hs : s.rxState with
    | accumulating =>
      obtain ⟨last, hl⟩ := Option.isSome_iff_exists.mp (h hs)
      exact ⟨_, frSelect_accumulating s last hr hs hl⟩
    | idle | complete =>
      cases hst : s.frIn.start with
      | true => exact ⟨_, frSelect_start s hr (by simp [hs]) hst⟩
      | false => exact ⟨_, frSelect_hold s hr (by simp [hs]) hst⟩

/-- When an operation is selected: its trigger, as its rule gives it (41_frame_receiver.md R162-R169). -/
def FrOp.trigger (s : State) : FrOp → Prop
  | .reset => s.frIn.rst = true
  | .start => s.frIn.rst = false ∧ s.rxState ≠ .accumulating ∧ s.frIn.start = true
  | .hold => s.frIn.rst = false ∧ s.rxState ≠ .accumulating ∧ s.frIn.start = false
  | .clockFault =>
    s.frIn.rst = false ∧ s.rxState = .accumulating ∧ ∃ last, s.rxLastMs = some last ∧ s.frIn.nowMs < last
  | .consume =>
    s.frIn.rst = false ∧ s.rxState = .accumulating ∧ ∃ last, s.rxLastMs = some last ∧ last ≤ s.frIn.nowMs ∧
      s.frIn.rxAvail = true ∧ s.rxLen < s.params.rxCap
  | .drop =>
    s.frIn.rst = false ∧ s.rxState = .accumulating ∧ ∃ last, s.rxLastMs = some last ∧ last ≤ s.frIn.nowMs ∧
      s.frIn.rxAvail = true ∧ s.params.rxCap ≤ s.rxLen
  | .complete =>
    s.frIn.rst = false ∧ s.rxState = .accumulating ∧ ∃ last, s.rxLastMs = some last ∧ last ≤ s.frIn.nowMs ∧
      s.frIn.rxAvail = false ∧ s.params.quietMs < s.frIn.nowMs - last
  | .wait =>
    s.frIn.rst = false ∧ s.rxState = .accumulating ∧ ∃ last, s.rxLastMs = some last ∧ last ≤ s.frIn.nowMs ∧
      s.frIn.rxAvail = false ∧ s.frIn.nowMs - last ≤ s.params.quietMs

/-- The selected operation's trigger holds. -/
theorem frSelect_trigger (s : State) (op : FrOp) (h : frSelect s = .value op) : op.trigger s := by
  cases hr : s.frIn.rst with
  | true =>
    rw [frSelect_reset s hr] at h
    cases h
    exact hr
  | false =>
    cases hs : s.rxState with
    | accumulating =>
      cases hl : s.rxLastMs with
      | none => simp [frSelect, hr, hs, hl] at h
      | some last =>
        rw [frSelect_accumulating s last hr hs hl] at h
        cases h
        simp only [Bool.and_eq_true, decide_eq_true_eq, quietExceeded]
        repeat' split
        all_goals simp_all [FrOp.trigger]
    | idle | complete =>
      cases hst : s.frIn.start with
      | true =>
        rw [frSelect_start s hr (by simp [hs]) hst] at h
        cases h
        simp [FrOp.trigger, hr, hs, hst]
      | false =>
        rw [frSelect_hold s hr (by simp [hs]) hst] at h
        cases h
        simp [FrOp.trigger, hr, hs, hst]

/-- What the selected operation of a receiver step answers: one effect per operation. -/
def frEffect (op : FrOp) (s : State) : State :=
  match op with
  | .reset => s.resetReceiver.takeNone
  | .start => s.beginReception.takeNone
  | .hold => s.takeNone
  | .clockFault => s.raiseClockFault.takeNone
  | .consume => s.storeByte.takeByte
  | .drop => s.overflowByte.takeByte
  | .complete => s.finishReception.takeNone
  | .wait => s.takeNone

/-- Every receiver instruction is its effect where it is selected. -/
theorem exec_frOp (op : FrOp) (s : State) : exec op.toInstr s = whenSelected op s (frEffect op s) := by
  cases op <;> rfl

/-- A receiver step answers the effect of the operation its sample selects. -/
theorem runPoll_next (p : Poll) (s t : State) :
    runPoll p s = .next t ↔ ∃ op, frSelect (s.sample p) = .value op ∧ t = frEffect op (s.sample p) := by
  unfold runPoll
  cases h : frSelect (s.sample p) with
  | value op => simp [exec_frOp, whenSelected_of_selected _ _ _ h, eq_comm]
  | refused r => simp

/-- A command answers a next state in every state: its frame is on the Command Encoder's ports. -/
theorem exec_command (i : Instr) (h : i.isCommand = true) (s : State) : ∃ f, exec i s = .next (s.emit i f) := by
  cases i <;> first | exact ⟨_, rfl⟩ | simp [Instr.isCommand] at h

/-- An instruction is a command, DECODE, or one of the receiver's operations. -/
theorem Instr.kinds (i : Instr) :
    i.isCommand = true ∨ (∃ f, i = .posReply f) ∨ ∃ op : FrOp, i = op.toInstr := by
  cases i
  case posReply f => exact .inr (.inl ⟨f, rfl⟩)
  case reset => exact .inr (.inr ⟨.reset, rfl⟩)
  case rxStart => exact .inr (.inr ⟨.start, rfl⟩)
  case rxHold => exact .inr (.inr ⟨.hold, rfl⟩)
  case rxClockFault => exact .inr (.inr ⟨.clockFault, rfl⟩)
  case rxConsume => exact .inr (.inr ⟨.consume, rfl⟩)
  case rxDrop => exact .inr (.inr ⟨.drop, rfl⟩)
  case rxComplete => exact .inr (.inr ⟨.complete, rfl⟩)
  case rxWait => exact .inr (.inr ⟨.wait, rfl⟩)
  all_goals exact .inl rfl

/-- Everything an instruction that answers a next state can have done. -/
theorem exec_next (i : Instr) (s t : State) (h : exec i s = .next t) :
    (i.isCommand = true ∧ ∃ f, t = s.emit i f) ∨
    (∃ f, i = .posReply f ∧ t = s.drivePd f (pdDecode s.params.expectedAddr f)) ∨
    (∃ op : FrOp, i = op.toInstr ∧ frSelect s = .value op ∧ t = frEffect op s) := by
  rcases Instr.kinds i with hc | ⟨f, rfl⟩ | ⟨op, rfl⟩
  · obtain ⟨f, hf⟩ := exec_command i hc s
    rw [hf] at h
    cases h
    exact .inl ⟨hc, f, rfl⟩
  · cases h
    exact .inr (.inl ⟨f, rfl, rfl⟩)
  · rw [exec_frOp, whenSelected_next] at h
    exact .inr (.inr ⟨op, rfl, h⟩)

/-- A read step changes nothing. -/
theorem runRead_next (r : ReadTarget) (s t : State) (h : runRead r s = .next t) : t = s := by
  have asStep : ∀ {α : Type} (a : Read α), a.asStep s = .next t → t = s := by
    intro α a ha
    cases a <;> simp_all [Read.asStep]
  cases r <;> exact asStep _ h

/-- Everything an action that answers a next state can have done: it read, it ran one instruction, or it was a step of
the receiver. -/
theorem runEvent_next (e : EnvEvent) (s t : State) (h : runEvent e s = .next t) :
    t = s ∨ (∃ i, exec i s = .next t) ∨ (∃ p, e = .poll p ∧ runPoll p s = .next t) := by
  cases e with
  | encode cmd =>
    simp only [runEvent] at h
    split at h
    · exact .inr (.inl ⟨cmd, h⟩)
    · cases h
  | decode f => exact .inr (.inl ⟨.posReply f, h⟩)
  | decodeFrame =>
    simp only [runEvent] at h
    split at h
    · exact .inr (.inl ⟨_, h⟩)
    · cases h
  | poll p => exact .inr (.inr ⟨p, rfl, h⟩)
  | read r => exact .inl (runRead_next r s t h)
  | word bs =>
    simp only [runEvent] at h
    split at h
    · exact .inr (.inl ⟨_, h⟩)
    · cases h

/-- A step that answers a next state ran one action in a state without a recorded ModelFault. -/
theorem step_next (s t : State) : step s = .next t ↔ s.modelFault = none ∧ runEvent s.nextEvent s.afterFetch = .next t := by
  unfold step stepOnce
  cases h : s.modelFault <;> simp

/-- A step of a state whose script begins with an action. -/
theorem step_scripted (s : State) (e : EnvEvent) (es : List EnvEvent) (hs : s.script = e :: es)
    (hf : s.modelFault = none) : step s = runEvent e { s with script := es } := by
  simp [step, stepOnce, hf, State.nextEvent, State.afterFetch, hs]

end Sys2Proof.Machine
end

