-- ==== Sys2Proof/Laws/PerInstr.lean ====
section
/-! SUPPORT. A fact about every instruction as text, one lemma per constructor of Instr: exactly the commands have a
function code, and a command's frame carries its function code at offset 1, has the length that code fixes
(30_encoding.md R81) and ends with the terminator (R70). -/
namespace Sys2Proof.Laws

/-- How an instruction's encoding is framed. -/
def Framing.Statement (i : Instr) : Prop :=
  (funcCode i).isSome = i.isCommand ∧
  ∀ e f c, encodeFor e i = some f → funcCode i = some c →
    f[1]? = some c ∧ lengthByFunc c = some f.length ∧ f.getLast? = some Config.term

/-- An instruction whose frame is known meets the statement when its frame does. -/
theorem Framing.of_frame (i : Instr) (c : Byte) (f : List Byte) (hc : funcCode i = some c) (hi : i.isCommand = true)
    (hf : ∀ e, encodeFor e i = some f) (h1 : f[1]? = some c) (hl : lengthByFunc c = some f.length)
    (ht : f.getLast? = some Config.term) : Framing.Statement i := by
  refine ⟨by simp [hc, hi], fun e g d hg hd => ?_⟩
  obtain rfl : f = g := Option.some.inj ((hf e).symm.trans hg)
  obtain rfl : c = d := Option.some.inj (hc.symm.trans hd)
  exact ⟨h1, hl, ht⟩

/-- An instruction without a function code is no command. -/
theorem Framing.of_none (i : Instr) (hc : funcCode i = none) (hi : i.isCommand = false) : Framing.Statement i :=
  ⟨by simp [hc, hi], fun _ _ _ _ hd => by simp [hc] at hd⟩

theorem Framing.rdparam1F (a : Int) : Framing.Statement (.rdparam1F a) :=
  Framing.of_frame _ _ _ rfl rfl (fun _ => rfl) rfl rfl rfl

theorem Framing.rdparam20 (a : Int) : Framing.Statement (.rdparam20 a) :=
  Framing.of_frame _ _ _ rfl rfl (fun _ => rfl) rfl rfl rfl

theorem Framing.rdparam21 (a : Int) : Framing.Statement (.rdparam21 a) :=
  Framing.of_frame _ _ _ rfl rfl (fun _ => rfl) rfl rfl rfl

theorem Framing.rdparam24 (a : Int) : Framing.Statement (.rdparam24 a) :=
  Framing.of_frame _ _ _ rfl rfl (fun _ => rfl) rfl rfl rfl

theorem Framing.rdparam27 (a : Int) : Framing.Statement (.rdparam27 a) :=
  Framing.of_frame _ _ _ rfl rfl (fun _ => rfl) rfl rfl rfl

theorem Framing.rdparam31 (a : Int) : Framing.Statement (.rdparam31 a) :=
  Framing.of_frame _ _ _ rfl rfl (fun _ => rfl) rfl rfl rfl

theorem Framing.rdparam33 (a : Int) : Framing.Statement (.rdparam33 a) :=
  Framing.of_frame _ _ _ rfl rfl (fun _ => rfl) rfl rfl rfl

theorem Framing.rdparam35 (a : Int) : Framing.Statement (.rdparam35 a) :=
  Framing.of_frame _ _ _ rfl rfl (fun _ => rfl) rfl rfl rfl

theorem Framing.rdparam36 (a : Int) : Framing.Statement (.rdparam36 a) :=
  Framing.of_frame _ _ _ rfl rfl (fun _ => rfl) rfl rfl rfl

theorem Framing.rdparam37 (a : Int) : Framing.Statement (.rdparam37 a) :=
  Framing.of_frame _ _ _ rfl rfl (fun _ => rfl) rfl rfl rfl

theorem Framing.rdparam3A (a : Int) : Framing.Statement (.rdparam3A a) :=
  Framing.of_frame _ _ _ rfl rfl (fun _ => rfl) rfl rfl rfl

theorem Framing.rdparam3B (a : Int) : Framing.Statement (.rdparam3B a) :=
  Framing.of_frame _ _ _ rfl rfl (fun _ => rfl) rfl rfl rfl

theorem Framing.rdparam42 (a : Int) : Framing.Statement (.rdparam42 a) :=
  Framing.of_frame _ _ _ rfl rfl (fun _ => rfl) rfl rfl rfl

theorem Framing.rdparam43 (a : Int) : Framing.Statement (.rdparam43 a) :=
  Framing.of_frame _ _ _ rfl rfl (fun _ => rfl) rfl rfl rfl

theorem Framing.zeroPos (a : Int) : Framing.Statement (.zeroPos a) :=
  Framing.of_frame _ _ _ rfl rfl (fun _ => rfl) rfl rfl rfl

theorem Framing.clrStall (a : Int) : Framing.Statement (.clrStall a) :=
  Framing.of_frame _ _ _ rfl rfl (fun _ => rfl) rfl rfl rfl

theorem Framing.setCtrlMode (a : Int) (save : Bool) (mode : Int) : Framing.Statement (.setCtrlMode a save mode) :=
  Framing.of_frame _ _ _ rfl rfl (fun _ => rfl) rfl rfl rfl

theorem Framing.enable (a : Int) (en sync : Bool) : Framing.Statement (.enable a en sync) :=
  Framing.of_frame _ _ _ rfl rfl (fun _ => rfl) rfl rfl rfl

theorem Framing.vel (a dir velocity acc : Int) (sync : Bool) : Framing.Statement (.vel a dir velocity acc sync) :=
  Framing.of_frame _ _ _ rfl rfl (fun _ => rfl) rfl rfl rfl

theorem Framing.pos (a dir velocity acc pulses : Int) (rel sync : Bool) : Framing.Statement (.pos a dir velocity acc pulses rel sync) :=
  Framing.of_frame _ _ _ rfl rfl (fun _ => rfl) rfl rfl rfl

theorem Framing.stop (a : Int) (sync : Bool) : Framing.Statement (.stop a sync) :=
  Framing.of_frame _ _ _ rfl rfl (fun _ => rfl) rfl rfl rfl

theorem Framing.syncRun (a : Int) : Framing.Statement (.syncRun a) :=
  Framing.of_frame _ _ _ rfl rfl (fun _ => rfl) rfl rfl rfl

theorem Framing.setHomeZero (a : Int) (save : Bool) : Framing.Statement (.setHomeZero a save) :=
  Framing.of_frame _ _ _ rfl rfl (fun _ => rfl) rfl rfl rfl

theorem Framing.homeCfg (a : Int) (save : Bool) (mode dir hvel htmo svel scur stime : Int) (auto : Bool) : Framing.Statement (.homeCfg a save mode dir hvel htmo svel scur stime auto) :=
  Framing.of_frame _ _ _ rfl rfl (fun _ => rfl) rfl rfl rfl

theorem Framing.home (a mode : Int) (sync : Bool) : Framing.Statement (.home a mode sync) :=
  Framing.of_frame _ _ _ rfl rfl (fun _ => rfl) rfl rfl rfl

theorem Framing.homeAbort (a : Int) : Framing.Statement (.homeAbort a) :=
  Framing.of_frame _ _ _ rfl rfl (fun _ => rfl) rfl rfl rfl

theorem Framing.posReply (f : List Byte) : Framing.Statement (.posReply f) :=
  Framing.of_none _ rfl rfl

theorem Framing.reset : Framing.Statement .reset :=
  Framing.of_none _ rfl rfl

theorem Framing.rxStart : Framing.Statement .rxStart :=
  Framing.of_none _ rfl rfl

theorem Framing.rxHold : Framing.Statement .rxHold :=
  Framing.of_none _ rfl rfl

theorem Framing.rxClockFault : Framing.Statement .rxClockFault :=
  Framing.of_none _ rfl rfl

theorem Framing.rxConsume : Framing.Statement .rxConsume :=
  Framing.of_none _ rfl rfl

theorem Framing.rxDrop : Framing.Statement .rxDrop :=
  Framing.of_none _ rfl rfl

theorem Framing.rxComplete : Framing.Statement .rxComplete :=
  Framing.of_none _ rfl rfl

theorem Framing.rxWait : Framing.Statement .rxWait :=
  Framing.of_none _ rfl rfl

end Sys2Proof.Laws
end

