-- ==== Sys2Proof/Laws/Run.lean ====
section
/-! SUPPORT. Runs of scripted actions: one law that takes a run apart into its first action and the rest. -/
namespace Sys2Proof.Machine

/-- No instruction touches the script. -/
theorem exec_keeps_script (i : Instr) (s t : State) (h : exec i s = .next t) : t.script = s.script := by
  rcases exec_next i s t h with ⟨_, f, rfl⟩ | ⟨f, rfl, rfl⟩ | ⟨op, rfl, _, rfl⟩
  · rfl
  · rfl
  · cases op <;> rfl

/-- No action touches what is left of the script. -/
theorem runEvent_keeps_script (e : EnvEvent) (s t : State) (h : runEvent e s = .next t) : t.script = s.script := by
  rcases runEvent_next e s t h with rfl | ⟨i, hi⟩ | ⟨p, _, hp⟩
  · rfl
  · exact exec_keeps_script i s t hi
  · obtain ⟨op, _, rfl⟩ := (runPoll_next p s t).mp hp
    cases op <;> simp [frEffect]

theorem runScript_nil (s : State) : runScript [] s = .next s := rfl

/-- A run of scripted actions, taken apart: the first action in a state with the rest scripted, then the run of the rest.
A recorded ModelFault stops it. -/
theorem runScript_cons (e : EnvEvent) (es : List EnvEvent) (s : State) (hf : s.modelFault = none) :
    runScript (e :: es) s =
      match runEvent e { s with script := es ++ s.script } with
      | .next t => runScript es { t with script := s.script }
      | .fault r => .fault r
      | .refused r => .refused r := by
  have hstep : step { s with script := e :: (es ++ s.script) } = runEvent e { s with script := es ++ s.script } :=
    step_scripted _ e (es ++ s.script) rfl hf
  have hrun : runScript (e :: es) s = runSteps (es.length + 1) { s with script := e :: (es ++ s.script) } := rfl
  rw [hrun, runSteps, hstep]
  cases hr : runEvent e { s with script := es ++ s.script } with
  | next t =>
    have hk : t.script = es ++ s.script := runEvent_keeps_script _ _ _ hr
    have ht : { { t with script := s.script } with script := es ++ s.script } = t := by rw [← hk]
    show runSteps es.length t = runSteps es.length { t with script := es ++ s.script }
    rw [← hk]
  | fault r => rfl
  | refused r => rfl

/-- The same law for runs of receiver steps. -/
theorem runPolls_cons (p : Poll) (ps : List Poll) (s : State) (hf : s.modelFault = none) :
    runPolls (p :: ps) s =
      match runPoll p { s with script := ps.map .poll ++ s.script } with
      | .next t => runPolls ps { t with script := s.script }
      | .fault r => .fault r
      | .refused r => .refused r := by
  rw [runPolls, List.map_cons, runScript_cons _ _ _ hf]
  rfl

theorem runPolls_nil (s : State) : runPolls [] s = .next s := rfl

/-- A run that begins in a state with a recorded ModelFault stops at once. -/
theorem runScript_faulted (e : EnvEvent) (es : List EnvEvent) (s : State) (r : ModelFault) (h : s.modelFault = some r) :
    runScript (e :: es) s = .fault (.modelFault r) := by
  have hrun : runScript (e :: es) s = runSteps (es.length + 1) { s with script := e :: (es ++ s.script) } := rfl
  rw [hrun, runSteps]
  have hs : step { s with script := e :: (es ++ s.script) } = .fault (.modelFault r) := by simp [step, stepOnce, h]
  simp [hs]

end Sys2Proof.Machine
end

