-- ==== Sys2Proof/Tests/Slice0.lean ====
section
/-! SUPPORT. The model's own tests. Expected values are the spec's: the worked examples of 40_command_encoder.md and the
vectors of 95_test_vectors.md (E.., FR.., D.., L1-..), named in each test's comment. The witnesses at the end meet the
hypotheses of the statements, at the boundary values where a statement has clauses. -/
namespace Sys2Proof.Tests

open Sys2Proof Sys2Proof.Machine

/-! ## Well-formedness: an ill-formed term for each check -/

theorem test_wf_vel : WellFormed (.vel 255 255 65535 255 true) = true := by decide
theorem test_wf_address_high : WellFormed (.rdparam1F 256) = false := by decide
theorem test_wf_address_negative : WellFormed (.zeroPos (-1)) = false := by decide
theorem test_wf_setCtrlMode_mode : WellFormed (.setCtrlMode 1 true 256) = false := by decide
theorem test_wf_enable_address : WellFormed (.enable 256 true true) = false := by decide
theorem test_wf_vel_dir : WellFormed (.vel 1 256 0 0 false) = false := by decide
theorem test_wf_vel_velocity : WellFormed (.vel 1 0 65536 0 false) = false := by decide
theorem test_wf_vel_acc : WellFormed (.vel 1 0 0 300 false) = false := by decide
theorem test_wf_pos_pulses : WellFormed (.pos 1 0 0 0 4294967296 true false) = false := by decide
theorem test_wf_stop_address : WellFormed (.stop 256 true) = false := by decide
theorem test_wf_setHomeZero_address : WellFormed (.setHomeZero (-1) true) = false := by decide
theorem test_wf_home_mode : WellFormed (.home 1 256 true) = false := by decide
theorem test_wf_homeCfg_fields :
    WellFormed (.homeCfg 1 true 256 0 0 0 0 0 0 true) = false ∧
    WellFormed (.homeCfg 1 true 0 256 0 0 0 0 0 true) = false ∧
    WellFormed (.homeCfg 1 true 0 0 65536 0 0 0 0 true) = false ∧
    WellFormed (.homeCfg 1 true 0 0 0 4294967296 0 0 0 true) = false ∧
    WellFormed (.homeCfg 1 true 0 0 0 0 65536 0 0 true) = false ∧
    WellFormed (.homeCfg 1 true 0 0 0 0 0 65536 0 true) = false ∧
    WellFormed (.homeCfg 1 true 0 0 0 0 0 0 65536 true) = false := by decide
theorem test_wf_posReply_short : WellFormed (.posReply [0x01, 0x36, 0x00, 0x00, 0x00, 0x1C]) = false := by decide
theorem test_wf_posReply_address : WellFormed (.posReply [0x02, 0x36, 0, 0, 0, 0x1C, 0x20]) = false := by decide
theorem test_wf_posReply_function : WellFormed (.posReply [0x01, 0x35, 0, 0, 0, 0x1C, 0x20]) = false := by decide

/-! ## Decoding: one written-out frame per constructor (E1-E61, D1) -/

theorem test_decode_rdparam1F : decode 1 [0x01, 0x1F, 0x6B] = .ok (.rdparam1F 1) := rfl
theorem test_decode_rdparam20 : decode 1 [0x01, 0x20, 0x6B] = .ok (.rdparam20 1) := rfl
theorem test_decode_rdparam21 : decode 1 [0x02, 0x21, 0x6B] = .ok (.rdparam21 2) := rfl
theorem test_decode_rdparam24 : decode 1 [0x01, 0x24, 0x6B] = .ok (.rdparam24 1) := rfl
theorem test_decode_rdparam27 : decode 1 [0x01, 0x27, 0x6B] = .ok (.rdparam27 1) := rfl
theorem test_decode_rdparam31 : decode 1 [0x01, 0x31, 0x6B] = .ok (.rdparam31 1) := rfl
theorem test_decode_rdparam33 : decode 1 [0x01, 0x33, 0x6B] = .ok (.rdparam33 1) := rfl
theorem test_decode_rdparam35 : decode 1 [0x01, 0x35, 0x6B] = .ok (.rdparam35 1) := rfl
theorem test_decode_rdparam36 : decode 1 [0xFF, 0x36, 0x6B] = .ok (.rdparam36 255) := rfl
theorem test_decode_rdparam37 : decode 1 [0x01, 0x37, 0x6B] = .ok (.rdparam37 1) := rfl
theorem test_decode_rdparam3A : decode 1 [0x01, 0x3A, 0x6B] = .ok (.rdparam3A 1) := rfl
theorem test_decode_rdparam3B : decode 1 [0x01, 0x3B, 0x6B] = .ok (.rdparam3B 1) := rfl
theorem test_decode_rdparam42 : decode 1 [0x01, 0x42, 0x6B] = .ok (.rdparam42 1) := rfl
theorem test_decode_rdparam43 : decode 1 [0x01, 0x43, 0x6B] = .ok (.rdparam43 1) := rfl
theorem test_decode_zeroPos : decode 1 [0x01, 0x0A, 0x6D, 0x6B] = .ok (.zeroPos 1) := rfl
theorem test_decode_clrStall : decode 1 [0x01, 0x0E, 0x52, 0x6B] = .ok (.clrStall 1) := rfl
theorem test_decode_setCtrlMode : decode 1 [0x01, 0x46, 0x69, 0x01, 0x02, 0x6B] = .ok (.setCtrlMode 1 true 2) := rfl
theorem test_decode_enable : decode 1 [0x01, 0xF3, 0xAB, 0x00, 0x01, 0x6B] = .ok (.enable 1 false true) := rfl
theorem test_decode_vel :
    decode 1 [0x01, 0xF6, 0x01, 0xFF, 0xFF, 0xFF, 0x01, 0x6B] = .ok (.vel 1 1 65535 255 true) := rfl
theorem test_decode_pos :
    decode 1 [0x02, 0xFD, 0x00, 0x12, 0x34, 0x56, 0x78, 0x9A, 0xBC, 0xDE, 0x01, 0x01, 0x6B] =
      .ok (.pos 2 0 0x1234 0x56 0x789ABCDE true true) := rfl
theorem test_decode_stop : decode 1 [0x00, 0xFE, 0x98, 0x01, 0x6B] = .ok (.stop 0 true) := rfl
theorem test_decode_syncRun : decode 1 [0x00, 0xFF, 0x66, 0x6B] = .ok (.syncRun 0) := rfl
theorem test_decode_setHomeZero : decode 1 [0x01, 0x93, 0x88, 0x01, 0x6B] = .ok (.setHomeZero 1 true) := rfl
theorem test_decode_homeCfg :
    decode 1 [0x01, 0x4C, 0xAE, 0x00, 0x00, 0x00, 0x00, 0x1E, 0x00, 0x00, 0x27, 0x10, 0x01, 0x2C, 0x03, 0x20, 0x00, 0x3C,
      0x00, 0x6B] = .ok (.homeCfg 1 false 0 0 30 10000 300 800 60 false) := rfl
theorem test_decode_home : decode 1 [0x01, 0x9A, 0x03, 0x01, 0x6B] = .ok (.home 1 3 true) := rfl
theorem test_decode_homeAbort : decode 1 [0x01, 0x9C, 0x48, 0x6B] = .ok (.homeAbort 1) := rfl
theorem test_decode_posReply :
    decode 1 [0x01, 0x36, 0x00, 0x00, 0x00, 0x1C, 0x20, 0x6B] =
      .ok (.posReply [0x01, 0x36, 0x00, 0x00, 0x00, 0x1C, 0x20, 0x6B]) := rfl

/-- Rejections by name: code (E71), length, sub-code, flag (R85), terminator (R70), too few bytes. -/
theorem test_decode_rejects :
    decode 1 [0x01, 0x50, 0x6B] = .error (.unknownFunction 0x50) ∧
    decode 1 [0x01, 0x1F, 0x00, 0x6B] = .error .wrongLength ∧
    decode 1 [0x01, 0x0A, 0x6E, 0x6B] = .error (.wrongSubCode 0x6E) ∧
    decode 1 [0x01, 0xFE, 0x98, 0x02, 0x6B] = .error (.wrongFlag 0x02) ∧
    decode 1 [0x01, 0x36, 0x6A] = .error (.wrongTerminator 0x6A) ∧
    decode 1 [0x01] = .error .tooShort := ⟨rfl, rfl, rfl, rfl, rfl, rfl⟩

/-- The port-selected operations have no encoding (opcode_table.json: match null). -/
theorem test_encode_ports_none : encode .rxConsume = none ∧ encode .reset = none := ⟨rfl, rfl⟩

/-- The opcode table's words, as it numbers them: "fixed" of RDPARAM_1F (15..0 = 8043), STOP, POS_REPLY (310). -/
theorem test_tableWords :
    decodeTableWord 16 8043 = some (.rdparam1F 0) ∧
    decodeTableWord 32 0xFE98006B = some (.stop 0 false) ∧
    decodeTableWord 16 310 = some (.posReply [0x01, 0x36, 0, 0, 0, 0, 0]) := by decide

/-- A placed word runs as the first instruction after reset: the widest row, HOME_CFG. -/
theorem test_placed_word_runs :
    (match step (State.reset.withFetchWord 160 0x004CAE000000000000000000000000000000006B) with
      | .next t => t.ceLen
      | _ => 0) = 20 := by decide

/-! ## The Command Encoder -/

/-- The frame a command gives in the reset state. -/
def frameOf (i : Instr) : Option (List Byte) := ceFrameAfter i State.reset

/-- Scenario 1 (L1-1) and the masking example (L1-7). -/
theorem test_vel_scenario : frameOf (.vel 1 0 200 10 false) = some [0x01, 0xF6, 0x00, 0x00, 0xC8, 0x0A, 0x00, 0x6B] := by
  decide
theorem test_vel_wraps : frameOf (.vel 1 256 70000 300 false) = some [0x01, 0xF6, 0x00, 0x11, 0x70, 0x2C, 0x00, 0x6B] := by
  decide
/-- Scenario 2 (L1-2) and E52 (negative pulses). -/
theorem test_pos_scenario :
    frameOf (.pos 1 0 300 5 3200 true false) =
      some [0x01, 0xFD, 0x00, 0x01, 0x2C, 0x05, 0x00, 0x00, 0x0C, 0x80, 0x01, 0x00, 0x6B] := by decide
theorem test_pos_negative :
    frameOf (.pos 1 0 100 10 (-1) false false) =
      some [0x01, 0xFD, 0x00, 0x00, 0x64, 0x0A, 0xFF, 0xFF, 0xFF, 0xFF, 0x00, 0x00, 0x6B] := by decide
/-- E61. -/
theorem test_homeCfg_wraps :
    frameOf (.homeCfg 1 true 2 1 65541 4294967296 65535 (-1) 65537 true) =
      some [0x01, 0x4C, 0xAE, 0x01, 0x02, 0x01, 0x00, 0x05, 0x00, 0x00, 0x00, 0x00, 0xFF, 0xFF, 0xFF, 0xFF, 0x00, 0x01,
        0x01, 0x6B] := by decide
/-- R122's example, E18, R140, E23, E25. -/
theorem test_rdparam43_wraps : frameOf (.rdparam43 0x101) = some [0x01, 0x43, 0x6B] := by decide
theorem test_rdpos_negative : frameOf (.rdpos (-1)) = some [0xFF, 0x36, 0x6B] := by decide
theorem test_home : frameOf (.home 1 0 false) = some [0x01, 0x9A, 0x00, 0x00, 0x6B] := by decide
theorem test_setCtrlMode_wraps : frameOf (.setCtrlMode 1 true 258) = some [0x01, 0x46, 0x69, 0x01, 0x02, 0x6B] := by decide
theorem test_enable_off : frameOf (.enable 1 false true) = some [0x01, 0xF3, 0xAB, 0x00, 0x01, 0x6B] := by decide
/-- E20, E21, E27, E29, E31, E34. -/
theorem test_fixed_frames :
    frameOf (.zeroPos 1) = some [0x01, 0x0A, 0x6D, 0x6B] ∧ frameOf (.clrStall 1) = some [0x01, 0x0E, 0x52, 0x6B] ∧
    frameOf (.stop 0 true) = some [0x00, 0xFE, 0x98, 0x01, 0x6B] ∧ frameOf (.syncRun 0) = some [0x00, 0xFF, 0x66, 0x6B] ∧
    frameOf (.setHomeZero 1 true) = some [0x01, 0x93, 0x88, 0x01, 0x6B] ∧
    frameOf (.homeAbort 1) = some [0x01, 0x9C, 0x48, 0x6B] := by decide

/-! ## The Position Decoder -/

/-- D1 (positive, eight bytes), D9 (sign 0xFF), D12 (negative zero), D14 (greatest magnitude). -/
theorem test_pd_positive :
    pdDecode 1 [0x01, 0x36, 0x00, 0x00, 0x00, 0x1C, 0x20, 0x6B] =
      .reading { neg := false, mag := 7200, angleUnits := 324000, float64 := 0x4043C68000000000 } := by decide
theorem test_pd_negative :
    pdDecode 1 [0x01, 0x36, 0xFF, 0x00, 0x00, 0x80, 0x00] =
      .reading { neg := true, mag := 32768, angleUnits := -180 * 8192, float64 := 0xC066800000000000 } := by decide
theorem test_pd_negative_zero :
    pdDecode 1 [0x01, 0x36, 0x01, 0x00, 0x00, 0x00, 0x00] =
      .reading { neg := true, mag := 0, angleUnits := 0, float64 := 0x8000000000000000 } := by decide
theorem test_pd_greatest :
    pdDecode 1 [0x01, 0x36, 0x00, 0xFF, 0xFF, 0xFF, 0xFF] =
      .reading { neg := false, mag := 0xFFFFFFFF, angleUnits := 193273528275, float64 := 0x41767FFFFFE98000 } := by decide
/-- D2, D3, D6, D7, D21, D22. -/
theorem test_pd_no_reading :
    pdDecode 1 [0x01, 0x36, 0x00, 0x00, 0x00, 0x1C] = .noReading .short ∧ pdDecode 1 [] = .noReading .short ∧
    pdDecode 1 [0x02, 0x36, 0x00, 0x00, 0x00, 0x1C, 0x20] = .noReading .wrongPrefix ∧
    pdDecode 1 [0x01, 0x35, 0x00, 0x00, 0x00, 0x1C, 0x20] = .noReading .wrongPrefix ∧
    pdDecode 2 [0x01, 0x36, 0x00, 0x00, 0x00, 0x1C, 0x20] = .noReading .wrongPrefix := by decide
theorem test_pd_other_instance :
    pdDecode 2 [0x02, 0x36, 0x00, 0x00, 0x00, 0x40, 0x00, 0x6B] =
      .reading { neg := false, mag := 16384, angleUnits := 90 * 8192, float64 := 0x4056800000000000 } := by decide

/-! ## The Frame Receiver, one step each -/

/-- A receiver step's inputs. -/
def input (rst start : Bool) (arrivals : List Byte) (t : Nat) : Poll := { rst, start, arrivals, nowMs := t }

/-- A state inside a reception with two bytes stored, the last at 1000 ms. -/
def midway : State :=
  { State.reset with
    rxState := .accumulating, rxLen := 2, rxBuf := [(0, 0x01), (1, 0x36)], rxLastMs := some 1000 }

/-- The same state with a buffer of two cells: full. -/
def full : State := { midway with params := { Config.apex360 with rxCap := 2 } }

/-- The same reception, completed. -/
def ended : State := { midway with rxState := .complete }

/-- A state with sampled ports. -/
def withPorts (s : State) (rst start avail : Bool) (data : Byte) (t : Nat) : State :=
  { s with frIn := { rst := rst, start := start, rxAvail := avail, rxData := data, nowMs := t } }

/-- What a receiver step leaves in the registers and the queue. -/
def regsAfter (p : Poll) (s : State) : Option (RxState × Nat × Memory × Option Nat × Bool × Bool × List Byte) :=
  match runPoll p s with
  | .next t => some (t.rxState, t.rxLen, t.rxBuf, t.rxLastMs, t.rxOverflow, t.rxTake, t.source)
  | _ => none

/-- FR6: START takes no byte, even if one is available. -/
theorem test_start_takes_no_byte :
    regsAfter (input false true [0xAA] 50) State.reset = some (.accumulating, 0, [], some 50, false, false, [0xAA]) := rfl
/-- FR9: START from Complete discards the old frame. -/
theorem test_start_discards_frame :
    regsAfter (input false true [] 2000) ended = some (.accumulating, 0, [], some 2000, false, false, []) := rfl
/-- FR8: HOLD in Complete takes no byte. -/
theorem test_hold_keeps_frame :
    regsAfter (input false false [0xCC] 1172) ended =
      some (.complete, 2, [(0, 0x01), (1, 0x36)], some 1000, false, false, [0xCC]) := rfl
/-- FR7 and FR12: START is ignored in a reception; a byte is consumed however long the gap. -/
theorem test_consume_ignores_start_and_gap :
    regsAfter (input false true [0x6B, 0x99] 1299) midway =
      some (.accumulating, 3, [(0, 0x01), (1, 0x36), (2, 0x6B)], some 1299, false, true, [0x99]) := rfl
/-- FR16: a byte beyond capacity is dropped, the flag set, the timestamp refreshed. -/
theorem test_drop_sets_overflow :
    regsAfter (input false false [0x36] 1002) full =
      some (.accumulating, 2, [(0, 0x01), (1, 0x36)], some 1002, true, true, []) := rfl
/-- FR2: a gap of exactly 100 ms waits. FR3: 101 ms completes. -/
theorem test_wait_at_threshold :
    regsAfter (input false false [] 1100) midway =
      some (.accumulating, 2, [(0, 0x01), (1, 0x36)], some 1000, false, false, []) := rfl
theorem test_complete_past_threshold :
    regsAfter (input false false [] 1101) midway =
      some (.complete, 2, [(0, 0x01), (1, 0x36)], some 1000, false, false, []) := rfl
/-- FR11: a clock that ran backwards: no register change, the byte not taken, the fault recorded. -/
theorem test_clock_fault_changes_no_register :
    regsAfter (input false false [0x02] 999) midway =
      some (.accumulating, 2, [(0, 0x01), (1, 0x36)], some 1000, false, false, [0x02]) := rfl
theorem test_clock_fault_recorded :
    (match runPoll (input false false [0x02] 999) midway with
      | .next t => t.modelFault
      | _ => none) = some (.clockNotMonotonic 999 1000) := by decide
/-- FR10: RESET in any state, no byte taken. -/
theorem test_reset :
    regsAfter (input true true [0xDD] 201) midway = some (.idle, 0, [], none, false, false, [0xDD]) := rfl
/-- X1, X2, X3 and an index the buffer does not have. -/
theorem test_refused_reads :
    memRead 2 midway = .refused (.unwrittenBufferCell 2) ∧ memRead 128 midway = .refused (.noSuchCell 128) ∧
    readFrame midway = .refused (.frameNotComplete .accumulating) ∧
    readFrame ended = .value [0x01, 0x36] ∧ readReading midway = .refused .noReading := by decide

/-! ## The transaction script (R90, R91) -/

/-- What a script leaves of the receiver, the byte source and the feed. -/
def scriptEnd (r : Session.Result) : Option (RxState × Nat × Memory × Option Nat × List Byte × Feed) :=
  match r with
  | .next x => some (x.machine.rxState, x.machine.rxLen, x.machine.rxBuf, x.machine.rxLastMs, x.machine.source, x.feed)
  | _ => none

/-- FR5's moment: bytes offered at START's own millisecond, 0, are queued by then, and START takes none. -/
theorem test_script_feed_at_start :
    scriptEnd (runTransaction [.rxStart 0, .feed [(0, 0x01), (1, 0x36), (0, 0x02)]] State.reset) =
      some (.accumulating, 0, [], some 0, [0x01, 0x02], [(1, 0x36)]) := rfl
/-- L1-5 and R91 in their first millisecond: START, CONSUME 01, WAIT at t=0; the next byte belongs to t=1. -/
theorem test_script_first_millisecond :
    scriptEnd (reception [(0, 0x01), (1, 0x36)] 0 1 State.reset) =
      some (.accumulating, 1, [(0, 0x01)], some 0, [], [(1, 0x36)]) := rfl

/-! ## Witnesses: states and operands that meet the hypotheses of the statements -/

/-- For the statements whose only hypothesis is that the instruction is a command. -/
theorem witness_a_command : (Instr.vel 1 0 70000 10 false).isCommand = true ∧ (Instr.homeAbort (-1)).isCommand = true := by
  decide
theorem witness_CommandsLeaveOtherUnitsAlone :
    ∃ t, Instr.isCommand (.stop 1 true) = true ∧ exec (.stop 1 true) midway = .next t := ⟨_, rfl, rfl⟩
theorem witness_AddressByteOfEveryCommand : (Instr.syncRun 0).address = some 0 := rfl
theorem witness_FunctionCodeFixesLengthAndName :
    ∃ t u, exec (.vel 1 0 0 0 false) midway = .next t ∧ exec (.vel 2 1 9 9 true) ended = .next u ∧
      t.ceFrame[1]? = u.ceFrame[1]? := ⟨_, _, rfl, rfl, rfl⟩
theorem witness_DecodeOfEncode :
    Instr.wfFor 0x01 (.home 255 255 true) = true ∧
    encodeFor 0x01 (.home 255 255 true) = some [0xFF, 0x9A, 0xFF, 0x01, 0x6B] := by decide
theorem witness_DecodeOfEncode_reply :
    Instr.wfFor 0x02 (.posReply [0x02, 0x36, 0, 0, 0, 0, 0]) = true ∧
    encodeFor 0x02 (.posReply [0x02, 0x36, 0, 0, 0, 0, 0]) = some [0x02, 0x36, 0, 0, 0, 0, 0] := by decide
theorem witness_EncodeOfDecode : decode 0x01 [0xFF, 0x9A, 0xFF, 0x01, 0x6B] = .ok (.home 255 255 true) := rfl
theorem witness_UnknownFunctionCodesAreRejected : lengthByFunc 0x50 = none := by decide
theorem witness_StartBeginsReception :
    ∃ s, s = withPorts ended false true true 0xAA 2000 ∧ s.frIn.rst = false ∧ s.frIn.start = true ∧
      (s.rxState = .idle ∨ s.rxState = .complete) := ⟨_, rfl, rfl, rfl, .inr rfl⟩
theorem witness_HoldKeepsEverything :
    ∃ s, s = withPorts State.reset false false true 0xAA 7 ∧ s.frIn.rst = false ∧ s.frIn.start = false ∧
      (s.rxState = .idle ∨ s.rxState = .complete) := ⟨_, rfl, rfl, rfl, .inl rfl⟩
theorem witness_ConsumeStoresOneByte :
    ∃ s, s = withPorts { midway with rxLen := 127 } false false true 0xAA 1000 ∧ s.frIn.rst = false ∧
      s.rxState = .accumulating ∧ s.rxLastMs = some 1000 ∧ 1000 ≤ s.frIn.nowMs ∧ s.frIn.rxAvail = true ∧
      s.rxLen < s.params.rxCap := ⟨_, rfl, rfl, rfl, rfl, by decide, rfl, by decide⟩
theorem witness_DropSetsOverflow :
    ∃ s, s = withPorts full false false true 0xAA 1000 ∧ s.frIn.rst = false ∧ s.rxState = .accumulating ∧
      s.rxLastMs = some 1000 ∧ 1000 ≤ s.frIn.nowMs ∧ s.frIn.rxAvail = true ∧ s.rxLen = s.params.rxCap :=
  ⟨_, rfl, rfl, rfl, rfl, by decide, rfl, rfl⟩
theorem witness_WaitKeepsRegisters :
    ∃ s, s = withPorts midway false true false 0 1100 ∧ s.frIn.rst = false ∧ s.rxState = .accumulating ∧
      s.rxLastMs = some 1000 ∧ 1000 ≤ s.frIn.nowMs ∧ s.frIn.rxAvail = false ∧
      s.frIn.nowMs - 1000 ≤ s.params.quietMs := ⟨_, rfl, rfl, rfl, rfl, by decide, rfl, by decide⟩
theorem witness_CompleteEndsFrame :
    ∃ s, s = withPorts midway false true false 0 1101 ∧ s.frIn.rst = false ∧ s.rxState = .accumulating ∧
      s.rxLastMs = some 1000 ∧ 1000 ≤ s.frIn.nowMs ∧ s.frIn.rxAvail = false ∧
      s.params.quietMs < s.frIn.nowMs - 1000 := ⟨_, rfl, rfl, rfl, rfl, by decide, rfl, by decide⟩
theorem witness_ClockFaultIsRecorded :
    ∃ s, s = withPorts midway false false true 0xAA 999 ∧ s.frIn.rst = false ∧ s.rxState = .accumulating ∧
      s.rxLastMs = some 1000 ∧ s.frIn.nowMs < 1000 := ⟨_, rfl, rfl, rfl, rfl, by decide⟩
theorem witness_ResetClearsReceiver : (withPorts midway true true true 0xAA 999).frIn.rst = true := rfl
theorem witness_ReceiverOperationsFrame :
    ∃ t, exec FrOp.consume.toInstr (withPorts midway false false true 0xAA 1001) = .next t := ⟨_, rfl⟩
theorem witness_UnselectedOperationIsRefused :
    frSelect (withPorts midway false false true 0xAA 1001) = .value .consume ∧ FrOp.drop ≠ FrOp.consume := by decide
theorem witness_PollFollowsPriority :
    midway.rxState = .accumulating ∧ (midway.rxState = .accumulating → midway.rxLastMs = some 1000) := by decide
theorem witness_TakeRemovesExactlyTheHead : ∃ t, runPoll (input false false [0xAA, 0xBB] 1001) midway = .next t := ⟨_, rfl⟩
theorem witness_StartIsIgnoredWhileAccumulating :
    midway.rxState = .accumulating ∧ midway.rxLastMs.isSome = true := by decide
theorem witness_IdleDataIsNeverRead :
    ∃ s t, s = withPorts midway false false false 0xAA 1101 ∧ s.frIn.rxAvail = false ∧
      exec FrOp.complete.toInstr s = .next t := ⟨_, _, rfl, rfl, rfl⟩
theorem witness_OnlyTheseOperationsWriteRegisters :
    ∃ t, exec .rxStart (withPorts ended false true true 0xAA 2000) = .next t := ⟨_, rfl⟩
theorem witness_OnlyTheseOperationsWriteRegisters_complete :
    ∃ t, exec .rxComplete (withPorts midway false true false 0 1101) = .next t ∧ midway.rxState ≠ .complete ∧
      t.rxState = .complete := ⟨_, rfl, by decide, rfl⟩
theorem witness_RecordedFaultStopsMachine :
    ∃ s, s = { midway with modelFault := some (.clockNotMonotonic 999 1000) } ∧
      s.modelFault = some (.clockNotMonotonic 999 1000) := ⟨_, rfl, rfl⟩

/-- The buffer of the witness states holds exactly the cells 0 and 1. -/
theorem midway_cells (i : Nat) : (Memory.get i midway.rxBuf).isSome = true ↔ i < 2 := by
  simp only [midway, Memory.get]
  split
  · simp; omega
  · split
    · simp; omega
    · simp; omega

theorem midway_inv : Inv midway :=
  { fr := ⟨by decide, by decide, by decide, by decide, midway_cells, by decide, by decide⟩
    ce := ⟨rfl, fun _ => rfl, fun _ h => by cases h⟩
    pd := by unfold PdInv; decide }

theorem ended_inv : Inv ended :=
  { fr := ⟨by decide, by decide, by decide, by decide, midway_cells, by decide, by decide⟩
    ce := ⟨rfl, fun _ => rfl, fun _ h => by cases h⟩
    pd := by unfold PdInv; decide }

theorem witness_StepKeepsBlockInvariant :
    ∃ s t, s = { ended with script := [.decodeFrame] } ∧ Inv s ∧ step s = .next t :=
  ⟨_, _, rfl, { fr := ⟨ended_inv.fr.legal, ended_inv.fr.memWf, ended_inv.fr.lenCap, ended_inv.fr.overflowFull, midway_cells,
                       ended_inv.fr.idleEmpty, ended_inv.fr.stamp⟩
                ce := ⟨rfl, fun _ => rfl, fun _ h => by cases h⟩
                pd := ended_inv.pd }, rfl⟩
theorem witness_ClockDutyMeansNoFault :
    Inv midway ∧ midway.modelFault = none ∧ (∀ last, midway.rxLastMs = some last → last ≤ 1000) ∧
      clockDuty 1000 [input false false [0xAA] 1000, input false true [] 1101] := by
  refine ⟨midway_inv, rfl, fun last h => ?_, ?_⟩
  · cases h; exact Nat.le_refl _
  · simp [clockDuty, input]
theorem witness_StepKeepsFrameContents :
    ∃ s t, s = { midway with script := [.poll (input false true [0x6B] 1001)] } ∧ FrameOf [0x01, 0x36] s ∧
      step s = .next t ∧ bytesAfter [0x01, 0x36] s t = [0x01, 0x36, 0x6B] :=
  ⟨_, _, rfl, ⟨rfl, fun i => by match i with | 0 => rfl | 1 => rfl | i + 2 => rfl, by decide⟩, rfl, by rfl⟩
/-- The frame of one byte more than a buffer of two cells. -/
theorem witness_StepKeepsFrameContents_full :
    FrameOf [0x01, 0x36, 0x6B] { full with rxOverflow := true } :=
  ⟨rfl, fun i => by match i with | 0 => rfl | 1 => rfl | i + 2 => rfl, by decide⟩
theorem witness_ReceptionStoresArrivalsInOrder :
    ∃ s t, s = { State.reset with rxState := .accumulating, rxLastMs := some 0 } ∧ s.rxState = .accumulating ∧
      s.rxLen = 0 ∧ s.rxBuf = [] ∧ s.rxOverflow = false ∧
      (∀ p ∈ [input false false [0xAA, 0xBB] 1], p.rst = false ∧ p.start = false) ∧
      runPolls [input false false [0xAA, 0xBB] 1] s = .next t :=
  ⟨_, _, rfl, rfl, rfl, rfl, rfl, by decide, rfl⟩
theorem witness_NoOverallDeadline :
    midway.modelFault = none ∧ midway.rxState = .accumulating ∧ midway.rxLastMs = some 1000 ∧
      (∀ p ∈ [input false false [0xAA] 1000, input false true [0xBB] 1300], p.rst = false) ∧
      clockDuty 1000 [input false false [0xAA] 1000, input false true [0xBB] 1300] ∧
      alwaysAvailable midway.source.length [input false false [0xAA] 1000, input false true [0xBB] 1300] := by
  refine ⟨rfl, rfl, rfl, by decide, ?_, ?_⟩ <;> simp [clockDuty, alwaysAvailable, input, midway, State.reset]
theorem witness_NoOverallDeadline_step : ∃ t, midway.rxState = .accumulating ∧
    runPoll (input false false [] 1101) midway = .next t := ⟨_, rfl, rfl⟩
theorem witness_SilenceEndsFrameAtFirstLaterStep :
    midway.modelFault = none ∧ midway.rxState = .accumulating ∧ midway.rxLastMs = some 1000 ∧ midway.source = [] ∧
      (∀ p ∈ [input false false [] 1000, input false false [] 1100],
        p.rst = false ∧ p.arrivals = [] ∧ 1000 ≤ p.nowMs ∧ p.nowMs ≤ 1000 + midway.params.quietMs) ∧
      (input false false [] 1101).rst = false ∧ (input false false [] 1101).arrivals = [] ∧
      1000 + midway.params.quietMs < (input false false [] 1101).nowMs := by decide
theorem witness_FrameOutputOnlyWhenComplete :
    (Inv ended ∧ ended.rxState = .complete) ∧ Inv midway ∧ midway.rxState ≠ .complete :=
  ⟨⟨ended_inv, rfl⟩, midway_inv, by decide⟩
theorem witness_CellReadsByIndex :
    Inv midway ∧ 1 < midway.rxLen ∧ (midway.rxLen ≤ 2 ∧ 2 < midway.params.rxCap) ∧
      (midway.rxLen ≤ 127 ∧ 127 < midway.params.rxCap) ∧ midway.params.rxCap ≤ 128 :=
  ⟨midway_inv, by decide, by decide, by decide, by decide⟩
theorem witness_DecodeBranches :
    ([0x01, 0x36, 0, 0, 0, 0] : List Byte).length < 7 ∧ ((0x02 : Byte) ≠ midway.params.expectedAddr ∨ (0x36 : Byte) ≠ 0x36) := by
  decide
theorem witness_NoReadingIsExplicit :
    ([] : List Byte).length < 7 ∧
    ([0x02, 0x36, 0, 0, 0, 0, 0] : List Byte)[0]? ≠ some midway.params.expectedAddr ∧
    ([0x01, 0x35, 0, 0, 0, 0, 0] : List Byte)[1]? ≠ some 0x36 := by decide
theorem witness_DecodeIgnoresTrailingBytes :
    ([0x01, 0x36, 2, 0, 0, 0x40, 0] : List Byte).length = 7 ∧ (0x80 : Byte) ≠ 0x00 ∧ (0xFF : Byte) ≠ 0x00 := by decide
theorem witness_DecodeIsPure : midway.params.expectedAddr = 0x01 := rfl
theorem witness_DecodeLeavesOtherUnitsAlone : ∃ t, exec (.posReply [0x01, 0x36]) midway = .next t := ⟨_, rfl⟩
theorem witness_ReplyFromAnotherAddressIsNoReading : mask 8 2 ≠ midway.params.expectedAddr := by decide
theorem witness_StepRunsDecodedInstruction :
    ∃ s, s = { midway with script := [.word [0x01, 0x36, 0x6B], .decodeFrame] } ∧ s.modelFault = none ∧
      s.script = .word [0x01, 0x36, 0x6B] :: [.decodeFrame] ∧
      decode s.params.expectedAddr [0x01, 0x36, 0x6B] = .ok (.rdparam36 1) := ⟨_, rfl, rfl, rfl, rfl⟩
theorem witness_StepRunsDecodedInstruction_rejected :
    ∃ s, s = { midway with script := [.word [0x01, 0x50, 0x6B]] } ∧ s.modelFault = none ∧
      s.script = .word [0x01, 0x50, 0x6B] :: [] ∧
      decode s.params.expectedAddr [0x01, 0x50, 0x6B] = .error (.unknownFunction 0x50) := ⟨_, rfl, rfl, rfl, rfl⟩
theorem witness_StepRunsScriptedAction :
    (∃ s u, u = { s with script := [] } ∧ s = { ended with script := [.encode (.stop 300 true)] } ∧ s.modelFault = none ∧
      (Instr.stop 300 true).isCommand = true ∧ s.script = .encode (.stop 300 true) :: []) ∧
    (∃ s : State, s = { ended with script := [.decode [0x01]] } ∧ s.modelFault = none ∧ s.script = .decode [0x01] :: []) ∧
    (∃ s : State, s = { ended with script := [.decodeFrame] } ∧ s.modelFault = none ∧ readFrame s = .value [0x01, 0x36] ∧
      s.script = .decodeFrame :: []) ∧
    ∃ s : State, s = { ended with script := [.poll (input false true [] 9)] } ∧ s.modelFault = none ∧
      s.script = .poll (input false true [] 9) :: [] :=
  ⟨⟨_, _, rfl, rfl, rfl, rfl, rfl⟩, ⟨_, rfl, rfl, rfl⟩, ⟨_, rfl, rfl, rfl, rfl⟩, ⟨_, rfl, rfl, rfl⟩⟩
theorem witness_StepRunsScriptedAction_refusals :
    (Instr.isCommand .rxHold = false ∧ ∃ s : State, s = { ended with script := [.encode .rxHold] } ∧ s.modelFault = none) ∧
    (readFrame midway = .refused (.frameNotComplete .accumulating) ∧
      ∃ s : State, s = { midway with script := [.decodeFrame] } ∧ s.modelFault = none) ∧
    memRead 2 midway = .refused (.unwrittenBufferCell 2) ∧ memRead 127 midway = .refused (.unwrittenBufferCell 127) ∧
    memRead 128 midway = .refused (.noSuchCell 128) :=
  ⟨⟨rfl, _, rfl, rfl⟩, ⟨rfl, _, rfl, rfl⟩, by decide⟩
theorem witness_StepRunsScriptedAction_reads :
    memRead 1 midway = .value 0x36 ∧ readFrame ended = .value [0x01, 0x36] ∧
    (∃ s : State, s = { midway with script := [.read (.bufCell 1)] } ∧ s.modelFault = none ∧
      s.script = .read (.bufCell 1) :: []) ∧
    ∃ s : State, s = { ended with script := [.read .pdAngle] } ∧ s.modelFault = none ∧ s.script = .read .pdAngle :: [] :=
  ⟨by decide, rfl, ⟨_, rfl, rfl, rfl⟩, ⟨_, rfl, rfl, rfl⟩⟩
theorem witness_StepRunsScriptedAction_free : State.reset.modelFault = none ∧ State.reset.script = [] := ⟨rfl, rfl⟩
theorem witness_PlacedTableWordRunsNext :
    midway.modelFault = none ∧ midway.params.expectedAddr = 0x01 ∧ decodeTableWord 24 0x0A6D6B = some (.zeroPos 0) := by
  decide

end Sys2Proof.Tests
end

