-- ==== Sys2Proof/Proofs/RxTake.lean ====
section
/-! PROOFS. The byte source under a step of the receiver (10_state.md R31): `rx_take` of the step is the rule's
combination of the registers and the sampled ports, and it alone says whether the queue's head is removed. -/
namespace Sys2Proof.Machine

/-- The operations that take a byte. -/
def FrOp.takes : FrOp → Bool
  | .consume | .drop => true
  | .reset | .start | .hold | .clockFault | .complete | .wait => false

@[simp] theorem frEffect_rxTake (op : FrOp) (s : State) : (frEffect op s).rxTake = op.takes := by
  cases op <;> rfl

@[simp] theorem frEffect_frIn (op : FrOp) (s : State) : (frEffect op s).frIn = s.frIn := by
  cases op <;> rfl

/-- The queue loses its head in the operations that take a byte, and in no other. -/
@[simp] theorem frEffect_source (op : FrOp) (s : State) :
    (frEffect op s).source = if op.takes then s.source.tail else s.source := by
  cases op <;> rfl

theorem State.takesByte_iff (s : State) :
    s.takesByte = true ↔ s.rxState = .accumulating ∧ s.frIn.rst = false ∧ s.frIn.rxAvail = true ∧
      ¬ ∃ last, s.rxLastMs = some last ∧ s.frIn.nowMs < last := by
  cases hl : s.rxLastMs <;> simp [State.takesByte, State.rxBusy, State.clockFault, hl, and_assoc]

/-- The priority order of R170 selects an operation that takes a byte exactly where R31 has `rx_take = 1`. -/
theorem frSelect_takes (s : State) (op : FrOp) (h : frSelect s = .value op) : op.takes = s.takesByte := by
  have ht := frSelect_trigger s op h
  rw [Bool.eq_iff_iff, State.takesByte_iff]
  cases op with
  | reset =>
    have hrst : s.frIn.rst = true := ht
    simp [FrOp.takes, hrst]
  | start | hold =>
    obtain ⟨-, hstate, -⟩ := ht
    simp [FrOp.takes, hstate]
  | clockFault =>
    obtain ⟨-, -, hbehind⟩ := ht
    simp [FrOp.takes, hbehind]
  | complete | wait =>
    obtain ⟨-, -, last, -, -, havail, -⟩ := ht
    simp [FrOp.takes, havail]
  | consume | drop =>
    obtain ⟨hrst, hstate, last, hlast, hle, havail, -⟩ := ht
    simp [FrOp.takes, hrst, hstate, hlast, havail, hle]

/-- What a receiver step does to the byte source: R31's `rx_take` on the sampled state, and the head with it. -/
theorem runPoll_take (p : Poll) (s t : State) (h : runPoll p s = .next t) :
    t.rxTake = (s.sample p).takesByte ∧ t.frIn = (s.sample p).frIn ∧
      t.source = if t.rxTake then (s.source ++ p.arrivals).tail else s.source ++ p.arrivals := by
  obtain ⟨op, hop, rfl⟩ := (runPoll_next p s t).mp h
  exact ⟨by simp [frSelect_takes _ _ hop], by simp, by simp⟩

/-- Settles O32: R31's condition is read off the sampled state, and an available byte is the head of the queue. -/
theorem takeRemovesExactlyTheHead : Obligations.TakeRemovesExactlyTheHead := by
  intro p s t h
  obtain ⟨htake, hin, hsrc⟩ := runPoll_take p s t h
  have hiff : t.rxTake = true ↔ s.rxState = .accumulating ∧ p.rst = false ∧ s.source ++ p.arrivals ≠ [] ∧
      ¬ ∃ last, s.rxLastMs = some last ∧ p.nowMs < last := by
    rw [htake, State.takesByte_iff]
    simp
  refine ⟨hiff, fun ht => ?_, fun ht => by simpa [ht] using hsrc⟩
  obtain ⟨-, -, hne, -⟩ := hiff.mp ht
  obtain ⟨b, q, hq⟩ := List.exists_cons_of_ne_nil hne
  rw [hsrc, hin, State.sample_rxData p s b q hq, hq]
  simp [ht]

end Sys2Proof.Machine
end

