-- ==== Sys2Proof/Proofs/CommandFrames.lean ====
section
/-! PROOFS. The Command Encoder's frames (40_command_encoder.md). Every command's rule, written on its own, puts the
general frame shape of 30_encoding.md R70 on `ce_frame` in every state; the address byte (R101), the terminator (R104)
and the totality and purity of the encoder (R105, R106) are read off that shape. -/
namespace Sys2Proof.Machine

/-- The general frame shape of R70 for an address byte's integer and a function code. -/
def shapedFrame (a : Int) (c : Byte) (i : Instr) : List Byte :=
  u8 a ++ [c] ++ subCode i ++ payload i ++ [Config.term]

theorem shapedFrame_head (a : Int) (c : Byte) (i : Instr) : (shapedFrame a c i)[0]? = some (mask 8 a) := by
  simp [shapedFrame, u8]

theorem shapedFrame_last (a : Int) (c : Byte) (i : Instr) :
    (shapedFrame a c i)[(shapedFrame a c i).length - 1]? = some Config.term := by
  rw [← List.getLast?_eq_getElem?, shapedFrame, List.getLast?_concat]

/-- The operations with an address are the 26 commands (10_state.md R21). -/
theorem Instr.isCommand_eq_isSome_address (i : Instr) : i.isCommand = i.address.isSome := by
  cases i <;> rfl

/-- The meaning of every operation with an address, in every state: the rules of R109-R141 are instances of R70's shape,
with the function code of the operation's row. -/
theorem exec_of_address (i : Instr) (a : Int) (h : i.address = some a) :
    ∃ c, funcCode i = some c ∧ ∀ s, exec i s = .next (s.emit i (shapedFrame a c i)) := by
  cases i
  case posReply | reset | rxStart | rxHold | rxClockFault | rxConsume | rxDrop | rxComplete | rxWait => cases h
  all_goals
    cases h
    exact ⟨_, rfl, fun _ => rfl⟩

/-- Every command has an address and a function code, and puts their frame on `ce_frame` in every state. -/
theorem exec_of_isCommand (i : Instr) (h : i.isCommand = true) :
    ∃ a c, i.address = some a ∧ funcCode i = some c ∧ ∀ s, exec i s = .next (s.emit i (shapedFrame a c i)) := by
  rw [Instr.isCommand_eq_isSome_address] at h
  obtain ⟨a, ha⟩ := Option.isSome_iff_exists.mp h
  obtain ⟨c, hc, hexec⟩ := exec_of_address i a ha
  exact ⟨a, c, ha, hc, hexec⟩

theorem mask_toNat (w : Nat) (b : BitVec w) : mask w (b.toNat : Int) = b := by
  rw [mask, BitVec.ofInt_natCast, BitVec.ofNat_toNat, BitVec.setWidth_eq]

/-- Settles O8: the frame is R70's shape of the command, and `emit` writes the encoder's ports only. -/
theorem commandsArePureAndTotal : Obligations.CommandsArePureAndTotal := by
  intro i hi
  obtain ⟨a, c, -, -, hexec⟩ := exec_of_isCommand i hi
  exact ⟨shapedFrame a c i, hexec⟩

/-- Settles O10: the address byte is the head of R70's shape, and a byte is its own low eight bits. -/
theorem addressByteOfEveryCommand : Obligations.AddressByteOfEveryCommand := by
  refine ⟨fun i a s ha => ?_, mask_toNat 8⟩
  obtain ⟨c, -, hexec⟩ := exec_of_address i a ha
  exact ⟨_, hexec s, shapedFrame_head a c i⟩

/-- Settles O11: the terminator is the last byte of R70's shape. -/
theorem terminatorOfEveryCommand : Obligations.TerminatorOfEveryCommand := by
  intro i s hi
  obtain ⟨a, c, -, -, hexec⟩ := exec_of_isCommand i hi
  exact ⟨_, hexec s, rfl, shapedFrame_last a c i⟩

/-! ### the frames written out, rule by rule: each is the rule's own pseudocode, its fields put side by side -/

/-- Settles O1: the rules R109-R115 as written. -/
theorem readParamFrames1FTo33 : Obligations.ReadParamFrames1FTo33 :=
  fun _ _ => ⟨rfl, rfl, rfl, rfl, rfl, rfl, rfl⟩

/-- Settles O2: the rules R116-R122 as written. -/
theorem readParamFrames35To43 : Obligations.ReadParamFrames35To43 :=
  fun _ _ => ⟨rfl, rfl, rfl, rfl, rfl, rfl, rfl⟩

/-- Settles O3: the rules R130, R131, R137 and R141 as written. -/
theorem fixedSubCodeFrames : Obligations.FixedSubCodeFrames :=
  fun _ _ => ⟨rfl, rfl, rfl, rfl⟩

/-- Settles O4: a flag and a one-byte field are one byte each, so every rule's lists append to the bytes stated. -/
theorem flagAndModeFrames : Obligations.FlagAndModeFrames :=
  fun _ _ _ _ _ _ => ⟨rfl, rfl, rfl, rfl, rfl⟩

/-- Settles O5: R134's lists append to eight bytes, `be16` giving the two of the velocity. -/
theorem velocityFrame : Obligations.VelocityFrame :=
  fun _ _ _ _ _ _ => rfl

end Sys2Proof.Machine
end

