-- ==== Sys2Proof/Proofs/FrameReceiver.lean ====
section
/-! PROOFS. The receiver's operations in Accumulating (41_frame_receiver.md R165-R168), and why a reception has no overall
deadline (R175). An operation happens where its rule's trigger holds; while bytes keep coming the selected operation is
one that takes a byte, and such an operation stays in Accumulating with a fresh timestamp. -/
namespace Sys2Proof.Machine

/-! ### from a rule's trigger to its effect -/

theorem RxState.idle_or_complete (x : RxState) (h : x ≠ .accumulating) : x = .idle ∨ x = .complete := by
  cases x with
  | idle => exact .inl rfl
  | accumulating => exact absurd rfl h
  | complete => exact .inr rfl

/-- Where an operation's trigger holds, the priority order of R170 selects it: with `frSelect_trigger`, the triggers of the
rules are exactly the cases of the selection. -/
theorem frSelect_of_trigger (s : State) (op : FrOp) (h : op.trigger s) : frSelect s = .value op := by
  cases op with
  | reset => exact frSelect_reset s h
  | start =>
    obtain ⟨hrst, hstate, hstart⟩ := h
    exact frSelect_start s hrst (RxState.idle_or_complete _ hstate) hstart
  | hold =>
    obtain ⟨hrst, hstate, hstart⟩ := h
    exact frSelect_hold s hrst (RxState.idle_or_complete _ hstate) hstart
  | clockFault =>
    obtain ⟨hrst, hstate, last, hlast, hbehind⟩ := h
    simp [frSelect_accumulating s last hrst hstate hlast, hbehind]
  | consume | drop =>
    obtain ⟨hrst, hstate, last, hlast, hclock, havail, hroom⟩ := h
    simp [frSelect_accumulating s last hrst hstate hlast, Nat.not_lt.mpr hclock, havail, hroom]
  | complete | wait =>
    obtain ⟨hrst, hstate, last, hlast, hclock, havail, hgap⟩ := h
    simp [frSelect_accumulating s last hrst hstate hlast, Nat.not_lt.mpr hclock, havail, quietExceeded, hgap]

/-- An operation whose trigger holds completes with its effect. -/
theorem exec_of_trigger (s : State) (op : FrOp) (h : op.trigger s) : exec op.toInstr s = .next (frEffect op s) := by
  rw [exec_frOp, whenSelected_of_selected _ _ _ (frSelect_of_trigger s op h)]

/-! ### the operations of a reception -/

/-- Settles O23: the trigger of R165 holds, and the buffer it leaves is the old one with cell `rx_len` put. -/
theorem consumeStoresOneByte : Obligations.ConsumeStoresOneByte := by
  intro s last hrst hstate hlast hclock havail hroom
  have htrigger : FrOp.consume.trigger s := ⟨hrst, hstate, last, hlast, hclock, havail, hroom⟩
  exact ⟨Memory.put s.rxLen s.frIn.rxData s.rxBuf, exec_of_trigger s .consume htrigger, Memory.get_put_same _ _ _,
    fun i hi => Memory.get_put_other i _ _ _ hi⟩

/-- Settles O25: the trigger of R167 holds, its gap's bound included, and the effect only withholds `rx_take`. -/
theorem waitKeepsRegisters : Obligations.WaitKeepsRegisters := by
  intro s last hrst hstate hlast hclock havail hgap
  exact exec_of_trigger s .wait ⟨hrst, hstate, last, hlast, hclock, havail, hgap⟩

/-- Settles O26: the trigger of R168 holds; `rx_done` and `rx_busy` are read off the new `rx_state`. -/
theorem completeEndsFrame : Obligations.CompleteEndsFrame := by
  intro s last hrst hstate hlast hclock havail hgap
  exact ⟨_, exec_of_trigger s .complete ⟨hrst, hstate, last, hlast, hclock, havail, hgap⟩, rfl, rfl, rfl⟩

/-! ### no overall deadline -/

/-- An operation that takes a byte, to store or to drop it, stays in the reception, refreshes the timestamp and raises
nothing. -/
theorem frEffect_of_takes (op : FrOp) (s : State) (h : op.takes = true) :
    (frEffect op s).rxState = s.rxState ∧ (frEffect op s).rxLastMs = some s.frIn.nowMs ∧
      (frEffect op s).modelFault = s.modelFault := by
  cases op with
  | consume | drop => exact ⟨rfl, rfl, rfl⟩
  | reset | start | hold | clockFault | complete | wait => cases h

/-- One step of a reception with a byte available and the clock duty kept. -/
theorem runPoll_byteAvailable (p : Poll) (s : State) (last : Nat) (hstate : s.rxState = .accumulating)
    (hlast : s.rxLastMs = some last) (hrst : p.rst = false) (hclock : last ≤ p.nowMs)
    (havail : 0 < s.source.length + p.arrivals.length) :
    ∃ t, runPoll p s = .next t ∧ t.rxState = .accumulating ∧ t.rxLastMs = some p.nowMs ∧
      t.modelFault = s.modelFault ∧ t.rxTake = true ∧
      t.source.length = s.source.length + p.arrivals.length - 1 := by
  obtain ⟨op, hop⟩ := frSelect_total (s.sample p) (by simp [hlast])
  have hrun : runPoll p s = .next (frEffect op (s.sample p)) := (runPoll_next p s _).mpr ⟨op, hop, rfl⟩
  have hne : s.source ++ p.arrivals ≠ [] := List.ne_nil_of_length_pos (by simpa using havail)
  have htakes : op.takes = true := by
    rw [frSelect_takes _ _ hop, State.takesByte_iff]
    simpa [hstate, hrst, hlast, hclock] using hne
  obtain ⟨hstate', hlast', hfault'⟩ := frEffect_of_takes op (s.sample p) htakes
  exact ⟨_, hrun, by simp [hstate', hstate], by simp [hlast'], by simp [hfault'], by simp [htakes], by simp [htakes]⟩

/-- A run with a byte available at every step. The disjunct `s.rxTake = true` carries the last step's `rx_take` to the
empty run at the induction's end. -/
theorem runPolls_byteAvailable (ps : List Poll) (s : State) (last : Nat) (hfault : s.modelFault = none)
    (hstate : s.rxState = .accumulating) (hlast : s.rxLastMs = some last) (hrst : ∀ p ∈ ps, p.rst = false)
    (hclock : clockDuty last ps) (havail : alwaysAvailable s.source.length ps) :
    ∃ t, runPolls ps s = .next t ∧ t.rxState = .accumulating ∧ (s.rxTake = true ∨ ps ≠ [] → t.rxTake = true) := by
  induction ps generalizing s last with
  | nil => exact ⟨s, runPolls_nil s, hstate, by simp⟩
  | cons p ps ih =>
    obtain ⟨hclockp, hclock⟩ := hclock
    obtain ⟨havailp, havail⟩ := havail
    obtain ⟨hrstp, hrst⟩ := List.forall_mem_cons.mp hrst
    obtain ⟨u, hu, hustate, hulast, hufault, hutake, husource⟩ :=
      runPoll_byteAvailable p { s with script := ps.map .poll ++ s.script } last hstate hlast hrstp hclockp havailp
    obtain ⟨t, ht, htstate, httake⟩ := ih { u with script := s.script } p.nowMs (hufault.trans hfault) hustate hulast
      hrst hclock (husource ▸ havail)
    exact ⟨t, by rw [runPolls_cons p ps s hfault, hu]; exact ht, htstate, fun _ => httake (.inl hutake)⟩

/-- The ways out of a reception in one step: to Complete by STEP-COMPLETE and to Idle by RESET, each with the trigger of
its rule on the sampled ports. -/
theorem runPoll_leaves_accumulating (p : Poll) (s t : State) (hstate : s.rxState = .accumulating)
    (h : runPoll p s = .next t) :
    (t.rxState = .complete → FrOp.complete.trigger (s.sample p)) ∧
      (t.rxState = .idle → FrOp.reset.trigger (s.sample p)) := by
  obtain ⟨op, hop, rfl⟩ := (runPoll_next p s t).mp h
  have htrigger := frSelect_trigger _ op hop
  cases op with
  | reset => exact ⟨by simp [frEffect], fun _ => htrigger⟩
  | complete => exact ⟨fun _ => htrigger, by simp [frEffect]⟩
  | start | hold | clockFault | consume | drop | wait => simp [frEffect, hstate]

/-- Settles O42: by induction on the run every step takes a byte and stays; a step to Complete has R168's trigger, which
needs no byte and a long gap, and a step to Idle has RESET's. -/
theorem noOverallDeadline : Obligations.NoOverallDeadline := by
  refine ⟨fun ps s last hfault hstate hlast hrst hclock havail => ?_, fun p s t hstate h => ?_⟩
  · obtain ⟨t, ht, htstate, httake⟩ := runPolls_byteAvailable ps s last hfault hstate hlast hrst hclock havail
    exact ⟨t, ht, htstate, fun hne => httake (.inr hne)⟩
  · obtain ⟨hcomplete, hidle⟩ := runPoll_leaves_accumulating p s t hstate h
    refine ⟨fun ht => ?_, fun ht => by simpa [FrOp.trigger] using hidle ht⟩
    obtain ⟨-, -, last, hlast, -, havail, hgap⟩ := hcomplete ht
    exact ⟨by simpa using havail, last, by simpa using hlast, by simpa using hgap⟩

end Sys2Proof.Machine
end

