-- ==== Sys2Proof/Proofs/PositionDecoder.lean ====
section
/-! PROOFS. The Position Decoder (42_position_decoder.md): the angle of a reading (R194), DECODE's three branches and
its purity (R198, R199), and what a read of an absent reading answers (R196). -/
namespace Sys2Proof.Machine

/-! ### the value of a reading -/

/-- Appended words are the high word's shifted value plus the low word's. -/
theorem bitVec_toNat_append {m n : Nat} (x : BitVec m) (y : BitVec n) : (x ++ y).toNat = x.toNat * 2 ^ n + y.toNat := by
  rw [BitVec.toNat_append, ← Nat.shiftLeft_add_eq_or_of_lt y.isLt, Nat.shiftLeft_eq]

/-- The value of four bytes reassembled big-endian (00_scope.md R12). -/
theorem u32be_toNat (p q r s : Byte) :
    (u32be p q r s).toNat = p.toNat * 2 ^ 24 + q.toNat * 2 ^ 16 + r.toNat * 2 ^ 8 + s.toNat := by
  simp only [u32be, bitVec_toNat_append]
  omega

/-- The sign byte's meaning (R192): negative exactly when it is not zero. -/
theorem pdNegOf_iff (sign : Byte) : pdNegOf sign = true ↔ sign ≠ 0x00 := decide_eq_true_iff

/-- R194's second form: the integer raw value over 2^13. -/
theorem angleDegrees_readingOf (neg : Bool) (mag : BitVec 32) :
    angleDegrees (readingOf neg mag) = (if neg then -1 else 1) * ((mag.toNat : Rat) * 45) / 2 ^ 13 := by
  have hunits : ((readingOf neg mag).angleUnits : Rat) = (if neg then -1 else 1) * ((mag.toNat : Rat) * 45) := by
    simp [readingOf, angleUnits]
  rw [angleDegrees, Rat.mkRat_eq_div, hunits]
  norm_num

/-- R194's first form. -/
theorem angleDegrees_readingOf_eq_turns (neg : Bool) (mag : BitVec 32) :
    angleDegrees (readingOf neg mag) = (if neg then -1 else 1) * (mag.toNat : Rat) * 360 / 65536 := by
  rw [angleDegrees_readingOf]
  ring

/-- Settles O47: R194's two forms are one number, since 360 / 65536 = 45 / 2^13, and a 32-bit magnitude times 45 stays
below 2^38. -/
theorem angleIsExact : Obligations.AngleIsExact := by
  intro neg mag
  have hbound : mag.toNat * 45 < 2 ^ 38 := by
    have := mag.isLt
    omega
  exact ⟨angleDegrees_readingOf_eq_turns neg mag, angleDegrees_readingOf neg mag, rfl, hbound⟩

/-! ### DECODE, branch by branch -/

/-- DECODE in every state: `pd_in` and the decoder's outputs are driven, and nothing else. -/
theorem exec_posReply (f : List Byte) (s : State) :
    exec (.posReply f) s = .next (s.drivePd f (pdDecode s.params.expectedAddr f)) := rfl

theorem pdDecode_of_short (expected : Byte) (f : List Byte) (h : f.length < 7) :
    pdDecode expected f = .noReading .short := if_pos h

theorem pdDecode_of_wrongPrefix (expected : Byte) (f : List Byte) (hlen : 7 ≤ f.length)
    (h : f[0]? ≠ some expected ∨ f[1]? ≠ some 0x36) : pdDecode expected f = .noReading .wrongPrefix :=
  (if_neg (Nat.not_lt.mpr hlen)).trans (if_pos h)

theorem pdDecode_of_prefix (expected g m3 m2 m1 m0 : Byte) (rest : List Byte) :
    pdDecode expected (expected :: 0x36 :: g :: m3 :: m2 :: m1 :: m0 :: rest) =
      .reading (readingOf (pdNegOf g) (u32be m3 m2 m1 m0)) := by
  simp [pdDecode, rposFields, Config.posMinLen, Config.posFunc]

/-- R196: what fails the length test or the prefix test gives no reading, for one reason or the other. -/
theorem pdDecode_noReading (expected : Byte) (f : List Byte)
    (h : f.length < 7 ∨ f[0]? ≠ some expected ∨ f[1]? ≠ some 0x36) :
    ∃ reason, pdDecode expected f = .noReading reason := by
  by_cases hlen : f.length < 7
  · exact ⟨.short, pdDecode_of_short expected f hlen⟩
  · exact ⟨.wrongPrefix, pdDecode_of_wrongPrefix expected f (Nat.le_of_not_lt hlen) (h.resolve_left hlen)⟩

/-- Settles O46: the three branches of R198, and the value of the reading by R192-R194. -/
theorem decodeBranches : Obligations.DecodeBranches := by
  intro s
  refine ⟨fun f hlen => ?short, fun b0 b1 b2 b3 b4 b5 b6 rest hprefix => ?wrongPrefix,
    fun g m3 m2 m1 m0 rest => ⟨readingOf (pdNegOf g) (u32be m3 m2 m1 m0), ?reading, pdNegOf_iff g, rfl,
      u32be_toNat m3 m2 m1 m0, ?angle⟩⟩
  case short => rw [exec_posReply, pdDecode_of_short _ f hlen, State.drivePd]
  case wrongPrefix =>
    rw [exec_posReply, pdDecode_of_wrongPrefix _ _ (by simp) (by simpa using hprefix), State.drivePd]
  case reading => rw [exec_posReply, pdDecode_of_prefix, State.drivePd]
  case angle =>
    rw [angleDegrees_readingOf_eq_turns]
    simp only [pdNegOf_iff]
    rfl

/-- Settles O52: the result is `pdDecode` of the list and the expected address, which reads no state. -/
theorem decodeIsPure : Obligations.DecodeIsPure := by
  intro f expected
  refine ⟨pdDecode expected f, fun s haddr => ?_⟩
  rw [exec_posReply, haddr, State.drivePd]

/-! ### reads of an absent reading -/

theorem State.pdValid_of_noReading (s : State) (reason : PdReason) (h : s.pd = .noReading reason) :
    s.pdValid = false := by
  rw [State.pdValid, h]

/-- X3 (60_exceptions.md R211): without a reading there is no value, and a read of one is refused. -/
theorem readReading_asStep_of_noReading (s : State) (reason : PdReason) (h : s.pd = .noReading reason) :
    (readReading s).asStep s = .refused .noReading := by
  rw [readReading, h, Read.asStep]

/-- Settles O50: DECODE drives no reading, and a read of any part of the reading is a `readReading`, refused. -/
theorem noReadingIsExplicit : Obligations.NoReadingIsExplicit := by
  intro f s h
  obtain ⟨reason, hreason⟩ := pdDecode_noReading s.params.expectedAddr f h
  have hpd : (s.drivePd f (pdDecode s.params.expectedAddr f)).pd = .noReading reason := hreason
  have hrefused := readReading_asStep_of_noReading _ reason hpd
  exact ⟨_, exec_posReply f s, State.pdValid_of_noReading _ reason hpd, hrefused, hrefused, hrefused⟩

end Sys2Proof.Machine
end

