-- ==== Sys2Proof/Proofs/Encoding.lean ====
section
/-! PROOFS. Frames and their decoder (30_encoding.md): the fields of a frame carry integers modulo their widths (R12,
R107), the decoder reads every format's frame back, and whatever it accepts is the encoding of what it answers. -/
namespace Sys2Proof

open Machine

/-! ### fields -/

/-- `mask_w` is the Euclidean remainder (R12). -/
theorem mask_toNat_eq_emod (w : Nat) (v : Int) : ((mask w v).toNat : Int) = v % 2 ^ w := by
  rw [mask, BitVec.toNat_ofInt, Int.toNat_of_nonneg (Int.emod_nonneg _ (by simp))]
  norm_cast

theorem mask_fieldValue (w : Nat) (v : Int) : mask w (fieldValue w v) = mask w v := by
  rw [fieldValue, ← mask_toNat_eq_emod, mask_toNat]

@[simp] theorem u8_fieldValue (v : Int) : u8 (fieldValue 8 v) = u8 v := by
  rw [u8, mask_fieldValue, u8]

@[simp] theorem be16_fieldValue (v : Int) : be16 (fieldValue 16 v) = be16 v := by
  rw [be16, mask_fieldValue, be16]

@[simp] theorem be32_fieldValue (v : Int) : be32 (fieldValue 32 v) = be32 v := by
  rw [be32, mask_fieldValue, be32]

theorem fieldValue_of_inField (w : Nat) (v : Int) (h : inField w v = true) : fieldValue w v = v := by
  simp only [inField, Bool.and_eq_true, decide_eq_true_eq] at h
  exact Int.emod_eq_of_lt h.1 h.2

/-- The value of two bytes reassembled big-endian. -/
theorem u16be_toNat (p q : Byte) : (u16be p q).toNat = p.toNat * 2 ^ 8 + q.toNat := by
  rw [u16be, bitVec_toNat_append]

/-- A two-byte field's bytes reassemble to the field. -/
theorem u16be_extract (x : BitVec 16) : u16be (x.extractLsb' 8 8) (x.extractLsb' 0 8) = x := by
  apply BitVec.eq_of_toNat_eq
  have := x.isLt
  rw [u16be_toNat, BitVec.extractLsb'_toNat, BitVec.extractLsb'_toNat]
  simp only [Nat.shiftRight_eq_div_pow]
  omega

/-- A four-byte field's bytes reassemble to the field. -/
theorem u32be_extract (x : BitVec 32) :
    u32be (x.extractLsb' 24 8) (x.extractLsb' 16 8) (x.extractLsb' 8 8) (x.extractLsb' 0 8) = x := by
  apply BitVec.eq_of_toNat_eq
  have := x.isLt
  rw [u32be_toNat]
  simp only [BitVec.extractLsb'_toNat, Nat.shiftRight_eq_div_pow]
  omega

theorem int8_mask (v : Int) : int8 (mask 8 v) = fieldValue 8 v := mask_toNat_eq_emod 8 v

theorem int16_be16 (v : Int) :
    int16 ((mask 16 v).extractLsb' 8 8) ((mask 16 v).extractLsb' 0 8) = fieldValue 16 v := by
  rw [int16, u16be_extract, mask_toNat_eq_emod, fieldValue]

theorem int32_be32 (v : Int) :
    int32 ((mask 32 v).extractLsb' 24 8) ((mask 32 v).extractLsb' 16 8) ((mask 32 v).extractLsb' 8 8)
      ((mask 32 v).extractLsb' 0 8) = fieldValue 32 v := by
  rw [int32, u32be_extract, mask_toNat_eq_emod, fieldValue]

@[simp] theorem u8_int8 (b : Byte) : u8 (int8 b) = [b] := by
  rw [u8, int8, mask_toNat]

@[simp] theorem be16_int16 (p q : Byte) : be16 (int16 p q) = [p, q] := by
  have hp := p.isLt
  have hq := q.isLt
  simp only [be16, int16, mask_toNat, List.cons.injEq, and_true]
  constructor <;> apply BitVec.eq_of_toNat_eq <;>
    rw [BitVec.extractLsb'_toNat, u16be_toNat, Nat.shiftRight_eq_div_pow] <;> omega

@[simp] theorem be32_int32 (p q r s : Byte) : be32 (int32 p q r s) = [p, q, r, s] := by
  have hp := p.isLt
  have hq := q.isLt
  have hr := r.isLt
  have hs := s.isLt
  simp only [be32, int32, mask_toNat, List.cons.injEq, and_true]
  refine ⟨?_, ?_, ?_, ?_⟩ <;> apply BitVec.eq_of_toNat_eq <;>
    rw [BitVec.extractLsb'_toNat, u32be_toNat, Nat.shiftRight_eq_div_pow] <;> omega

/-- The number in a w-bit field is in the field's range. -/
theorem inField_toNat {w : Nat} (x : BitVec w) : inField w (x.toNat : Int) = true := by
  have := x.isLt
  simp only [inField, Bool.and_eq_true, decide_eq_true_eq]
  exact ⟨Int.natCast_nonneg _, by exact_mod_cast this⟩

@[simp] theorem inField_int8 (b : Byte) : inField 8 (int8 b) = true := inField_toNat b

@[simp] theorem inField_int16 (p q : Byte) : inField 16 (int16 p q) = true := inField_toNat _

@[simp] theorem inField_int32 (p q r s : Byte) : inField 32 (int32 p q r s) = true := inField_toNat _

/-- Settles O14: the bytes of a split field reassemble to `mask_w`, which is the remainder. -/
theorem fieldsRoundTripModuloWidth : Obligations.FieldsRoundTripModuloWidth := by
  intro v
  refine ⟨mask_toNat_eq_emod 8 v, ⟨_, _, rfl, ?_⟩, _, _, _, _, rfl, u32be_toNat _ _ _ _, ?_⟩
  · rw [← u16be_toNat, u16be_extract, mask_toNat_eq_emod]
  · rw [u32be_extract, mask_toNat_eq_emod]

/-! ### the frame of a command -/

/-- The encoder gives R70's general shape to every operation of the opcode map. -/
theorem encodeFor_of_address (expected : Byte) (i : Instr) (a : Int) (c : Byte) (ha : i.address = some a)
    (hc : funcCode i = some c) : encodeFor expected i = some (shapedFrame a c i) := by
  simp [encodeFor, ha, hc, shapedFrame]

/-- A command puts on `ce_frame` in every state what the encoder gives. -/
theorem exec_command_encodeFor (i : Instr) (h : i.isCommand = true) :
    ∃ a c, i.address = some a ∧ funcCode i = some c ∧ (∀ s, exec i s = .next (s.emit i (shapedFrame a c i))) ∧
      ∀ expected, encodeFor expected i = some (shapedFrame a c i) := by
  obtain ⟨a, c, ha, hc, hexec⟩ := exec_of_isCommand i h
  exact ⟨a, c, ha, hc, hexec, fun expected => encodeFor_of_address expected i a c ha hc⟩

/-- How every instruction's encoding is framed: the laws of `Laws.Framing`, one per constructor, in one. -/
theorem framing (i : Instr) : Laws.Framing.Statement i := by
  cases i
  exacts [Laws.Framing.rdparam1F _, Laws.Framing.rdparam20 _, Laws.Framing.rdparam21 _, Laws.Framing.rdparam24 _,
    Laws.Framing.rdparam27 _, Laws.Framing.rdparam31 _, Laws.Framing.rdparam33 _, Laws.Framing.rdparam35 _,
    Laws.Framing.rdparam36 _, Laws.Framing.rdparam37 _, Laws.Framing.rdparam3A _, Laws.Framing.rdparam3B _,
    Laws.Framing.rdparam42 _, Laws.Framing.rdparam43 _, Laws.Framing.zeroPos _, Laws.Framing.clrStall _,
    Laws.Framing.setCtrlMode _ _ _, Laws.Framing.enable _ _ _, Laws.Framing.vel _ _ _ _ _,
    Laws.Framing.pos _ _ _ _ _ _ _, Laws.Framing.stop _ _, Laws.Framing.syncRun _, Laws.Framing.setHomeZero _ _,
    Laws.Framing.homeCfg _ _ _ _ _ _ _ _ _ _, Laws.Framing.home _ _ _, Laws.Framing.homeAbort _,
    Laws.Framing.posReply _, Laws.Framing.reset, Laws.Framing.rxStart, Laws.Framing.rxHold,
    Laws.Framing.rxClockFault, Laws.Framing.rxConsume, Laws.Framing.rxDrop, Laws.Framing.rxComplete,
    Laws.Framing.rxWait]

/-- Byte 1 and the length of a command's frame (R81). -/
theorem shapedFrame_framing (i : Instr) (a : Int) (c : Byte) (ha : i.address = some a) (hc : funcCode i = some c) :
    (shapedFrame a c i)[1]? = some c ∧ lengthByFunc c = some (shapedFrame a c i).length := by
  obtain ⟨hbyte, hlen, -⟩ := (framing i).2 0 _ c (encodeFor_of_address 0 i a c ha hc) hc
  exact ⟨hbyte, hlen⟩

theorem lengthByFunc_bounds (c : Byte) (n : Nat) (h : lengthByFunc c = some n) : 3 ≤ n ∧ n ≤ 20 := by
  unfold lengthByFunc at h
  split_ifs at h <;> cases h <;> decide

/-- The opcode map's columns of function codes and mnemonics (R80). -/
def opcodeMap : List (Byte × String) :=
  [(0x1F, "RDPARAM_1F"), (0x20, "RDPARAM_20"), (0x21, "RDPARAM_21"), (0x24, "RDPARAM_24"), (0x27, "RDPARAM_27"),
   (0x31, "RDPARAM_31"), (0x33, "RDPARAM_33"), (0x35, "RDPARAM_35"), (0x36, "RDPARAM_36"), (0x37, "RDPARAM_37"),
   (0x3A, "RDPARAM_3A"), (0x3B, "RDPARAM_3B"), (0x42, "RDPARAM_42"), (0x43, "RDPARAM_43"), (0x0A, "ZERO_POS"),
   (0x0E, "CLR_STALL"), (0x46, "SET_CTRL_MODE"), (0xF3, "ENABLE"), (0xF6, "VEL"), (0xFD, "POS"), (0xFE, "STOP"),
   (0xFF, "SYNC_RUN"), (0x93, "SET_HOME_ZERO"), (0x4C, "HOME_CFG"), (0x9A, "HOME"), (0x9C, "HOME_ABORT")]

/-- A row's mnemonic is a function of its function code. -/
theorem opcodeMap_lookup (i : Instr) (c : Byte) (h : funcCode i = some c) :
    opcodeMap.lookup c = some i.mnemonic := by
  cases i
  case posReply | reset | rxStart | rxHold | rxClockFault | rxConsume | rxDrop | rxComplete | rxWait => cases h
  all_goals
    cases h
    rfl

/-- Settles O12: byte 1 of R70's shape is the row's code, which fixes the length and, by the opcode map, the
mnemonic. -/
theorem functionCodeFixesLengthAndName : Obligations.FunctionCodeFixesLengthAndName := by
  refine ⟨fun i s hi => ?_, fun i j s t u hi hj ht hu hbyte => ?_⟩
  · obtain ⟨a, c, ha, hc, hexec⟩ := exec_of_isCommand i hi
    obtain ⟨hbyte, hlen⟩ := shapedFrame_framing i a c ha hc
    exact ⟨_, c, hexec s, hc, hbyte, hlen, lengthByFunc_bounds c _ hlen⟩
  · obtain ⟨a, c, ha, hc, hexec⟩ := exec_of_isCommand i hi
    obtain ⟨b, d, hb, hd, hexec'⟩ := exec_of_isCommand j hj
    obtain rfl := Host.Outcome.next.inj ((hexec s).symm.trans ht)
    obtain rfl := Host.Outcome.next.inj ((hexec' s).symm.trans hu)
    have hcode : some c = some d :=
      (shapedFrame_framing i a c ha hc).1.symm.trans (hbyte.trans (shapedFrame_framing j b d hb hd).1)
    have hname := opcodeMap_lookup i c hc
    rw [Option.some.inj hcode, opcodeMap_lookup j d hd] at hname
    exact (Option.some.inj hname).symm

/-- Settles O15: the command's rule and the format's layout are both R70's shape. -/
theorem commandMeaningsAgreeWithFormats : Obligations.CommandMeaningsAgreeWithFormats := by
  intro i expected s hi
  obtain ⟨a, c, -, -, hexec, henc⟩ := exec_command_encodeFor i hi
  exact ⟨_, hexec s, henc expected⟩

/-- The encoder reduces every integer to its field (R102). -/
theorem encodeFor_reduced (expected : Byte) (i : Instr) : encodeFor expected i.reduced = encodeFor expected i := by
  cases i <;> simp [encodeFor, Instr.reduced, Instr.address, funcCode, subCode, payload]

theorem Instr.reduced_isCommand (i : Instr) : i.reduced.isCommand = i.isCommand := by
  cases i <;> rfl

/-- Settles O13: both commands put on the port what the encoder gives, which is the same for both. -/
theorem integersAreReducedToTheirFields : Obligations.IntegersAreReducedToTheirFields := by
  intro i s hi
  obtain ⟨t, ht, hframe⟩ := commandMeaningsAgreeWithFormats i 0 s hi
  obtain ⟨u, hu, hframe'⟩ := commandMeaningsAgreeWithFormats i.reduced 0 s ((Instr.reduced_isCommand i).trans hi)
  rw [encodeFor_reduced, hframe] at hframe'
  exact ⟨t, u, ht, hu, Option.some.inj hframe'⟩

/-! ### a frame read back -/

theorem withFlag_flag (b : Bool) (k : Bool → Except DecodeError Instr) :
    withFlag (if b then 1#8 else 0#8) k = k b := by
  cases b <;> rfl

theorem decodeF3_frame (k : Int → Instr) (a : Int) :
    decodeF3 k (mask 8 a) [Config.term] = .ok (k (fieldValue 8 a)) := by
  simp [decodeF3, closed, int8_mask]

theorem decodeF4_frame (sc : Byte) (k : Int → Instr) (a : Int) :
    decodeF4 sc k (mask 8 a) [sc, Config.term] = .ok (k (fieldValue 8 a)) := by
  simp [decodeF4, withSub, closed, int8_mask]

theorem decodeF5S_frame (sc : Byte) (k : Int → Bool → Instr) (a : Int) (b : Bool) :
    decodeF5S sc k (mask 8 a) [sc, if b then 0x01 else 0x00, Config.term] = .ok (k (fieldValue 8 a) b) := by
  simp [decodeF5S, withSub, withFlag_flag, closed, int8_mask]

/-- The row of a command's function code reads the rest of its frame back, every integer reduced to its field. -/
theorem decodeCommand_frame (i : Instr) (a : Int) (c : Byte) (ha : i.address = some a) (hc : funcCode i = some c) :
    decodeCommand (mask 8 a) c (subCode i ++ payload i ++ [Config.term]) = .ok i.reduced := by
  cases i
  case posReply | reset | rxStart | rxHold | rxClockFault | rxConsume | rxDrop | rxComplete | rxWait => cases ha
  all_goals cases ha; cases hc
  case setCtrlMode | enable | vel | pos | homeCfg | home =>
    simp [decodeCommand, decodeSetCtrlMode, decodeEnable, decodeVel, decodePos, decodeHomeCfg, decodeHome, subCode,
      payload, flag, u8, be16, be32, withSub, withFlag_flag, closed, int8_mask, int16_be16, int32_be32, Instr.reduced]
  case stop | setHomeZero =>
    simpa [decodeCommand, subCode, payload, flag, Instr.reduced] using decodeF5S_frame _ _ a _
  case zeroPos | clrStall | syncRun | homeAbort =>
    simpa [decodeCommand, subCode, payload, Instr.reduced] using decodeF4_frame _ _ a
  all_goals simpa [decodeCommand, subCode, payload, Instr.reduced] using decodeF3_frame _ a

theorem isRpos_iff (expected : Byte) (f : List Byte) :
    isRpos expected f = true ↔ 7 ≤ f.length ∧ f[0]? = some expected ∧ f[1]? = some 0x36 := by
  simp only [isRpos, Bool.and_eq_true, decide_eq_true_eq, and_assoc]
  rfl

/-- No command's frame is a position reply: the one command of function code 0x36 has three bytes. -/
theorem isRpos_shapedFrame (expected : Byte) (i : Instr) (a : Int) (c : Byte) (ha : i.address = some a)
    (hc : funcCode i = some c) : isRpos expected (shapedFrame a c i) = false := by
  obtain ⟨hbyte, hlen⟩ := shapedFrame_framing i a c ha hc
  rw [Bool.eq_false_iff, Ne, isRpos_iff]
  rintro ⟨hlong, -, hcode⟩
  obtain rfl : c = 0x36 := Option.some.inj (hbyte.symm.trans hcode)
  have : 3 = (shapedFrame a 0x36 i).length := Option.some.inj hlen
  omega

/-- Settles O18: a command's frame is no position reply, and its function code's row reads it back. -/
theorem decodeOfAnyCommandIsReduced : Obligations.DecodeOfAnyCommandIsReduced := by
  intro expected i hi
  obtain ⟨a, c, ha, hc, -, henc⟩ := exec_command_encodeFor i hi
  refine ⟨_, henc expected, ?_⟩
  have hshape : shapedFrame a c i = mask 8 a :: c :: (subCode i ++ payload i ++ [Config.term]) := by
    simp [shapedFrame, u8]
  unfold decode
  rw [isRpos_shapedFrame expected i a c ha hc, if_neg Bool.false_ne_true, hshape]
  exact decodeCommand_frame i a c ha hc

/-- The integers of a well-formed instruction are in their fields already. -/
theorem Instr.reduced_of_wfFor (expected : Byte) (i : Instr) (h : i.wfFor expected = true) : i.reduced = i := by
  cases i <;> simp_all [Instr.wfFor, Instr.reduced, fieldValue_of_inField]

/-- What has an encoding and is no command is a position reply, its encoding being its own bytes. -/
theorem encodeFor_of_not_isCommand (expected : Byte) (i : Instr) (f : List Byte) (hi : i.isCommand = false)
    (h : encodeFor expected i = some f) : i = .posReply f ∧ isRpos expected f = true := by
  cases i
  case posReply g =>
    obtain ⟨hrpos, hg⟩ := Option.ite_none_right_eq_some.mp h
    exact Option.some.inj hg ▸ ⟨rfl, hrpos⟩
  case reset | rxStart | rxHold | rxClockFault | rxConsume | rxDrop | rxComplete | rxWait => cases h
  all_goals cases hi

/-- Settles O16: a command is read back reduced, which for a well-formed one is itself; a position reply is its own
encoding. -/
theorem decodeOfEncode : Obligations.DecodeOfEncode := by
  intro expected i f hwf henc
  cases hi : i.isCommand with
  | true =>
    obtain ⟨g, hg, hdecode⟩ := decodeOfAnyCommandIsReduced expected i hi
    obtain rfl : g = f := Option.some.inj (hg.symm.trans henc)
    rw [hdecode, Instr.reduced_of_wfFor expected i hwf]
  | false =>
    obtain ⟨rfl, hrpos⟩ := encodeFor_of_not_isCommand expected i f hi henc
    exact if_pos hrpos

/-! ### what is accepted is an encoding -/

/-- Every instruction that the result answers satisfies `P`. -/
def Answers (P : Instr → Prop) (r : Except DecodeError Instr) : Prop := ∀ i, r = .ok i → P i

theorem answers_error (P : Instr → Prop) (e : DecodeError) : Answers P (.error e) := fun _ h => nomatch h

theorem answers_ite {P : Instr → Prop} {c : Prop} [Decidable c] {x y : Except DecodeError Instr}
    (hx : c → Answers P x) (hy : ¬ c → Answers P y) : Answers P (if c then x else y) := by
  split
  next hc => exact hx hc
  next hc => exact hy hc

theorem answers_closed {P : Instr → Prop} {t : Byte} {i : Instr} (h : t = Config.term → P i) :
    Answers P (closed t i) :=
  answers_ite (fun ht _ hj => Except.ok.inj hj ▸ h ht) fun _ => answers_error P _

theorem answers_withSub {P : Instr → Prop} {want got : Byte} {k : Except DecodeError Instr}
    (h : got = want → Answers P k) : Answers P (withSub want got k) :=
  answers_ite h fun _ => answers_error P _

theorem answers_withFlag {P : Instr → Prop} {x : Byte} {k : Bool → Except DecodeError Instr}
    (h : ∀ b, flag b = [x] → Answers P (k b)) : Answers P (withFlag x k) :=
  answers_ite (fun hx => h true (hx ▸ rfl)) fun _ =>
    answers_ite (fun hx => h false (hx ▸ rfl)) fun _ => answers_error P _

/-- The instruction is well-formed and `f` is its encoding. -/
def EncodesTo (expected : Byte) (f : List Byte) (i : Instr) : Prop :=
  i.wfFor expected = true ∧ encodeFor expected i = some f

/-- An instruction with an address encodes to its frame of R70's shape. -/
theorem encodesTo_of_address {expected a c : Byte} {i : Instr} {rest : List Byte} (hwf : i.wfFor expected = true)
    (ha : i.address = some (int8 a)) (hc : funcCode i = some c)
    (hrest : subCode i ++ payload i ++ [Config.term] = rest) : EncodesTo expected (a :: c :: rest) i := by
  refine ⟨hwf, ?_⟩
  rw [encodeFor_of_address expected i _ c ha hc, ← hrest]
  simp [shapedFrame]

section Formats

variable {expected a c : Byte} {rest : List Byte}

theorem answers_decodeF3 {k : Int → Instr}
    (h : ∀ v, (k v).wfFor expected = inField 8 v ∧ encodeFor expected (k v) = some (u8 v ++ [c, Config.term])) :
    Answers (EncodesTo expected (a :: c :: rest)) (decodeF3 k a rest) := by
  unfold decodeF3
  split
  · exact answers_closed fun ht => ⟨by simp [h], by simp [h, ht]⟩
  · exact answers_error _ _

theorem answers_decodeF4 {sc : Byte} {k : Int → Instr}
    (h : ∀ v, (k v).wfFor expected = inField 8 v ∧ encodeFor expected (k v) = some (u8 v ++ [c, sc, Config.term])) :
    Answers (EncodesTo expected (a :: c :: rest)) (decodeF4 sc k a rest) := by
  unfold decodeF4
  split
  · exact answers_withSub fun hs => answers_closed fun ht => ⟨by simp [h], by simp [h, hs, ht]⟩
  · exact answers_error _ _

theorem answers_decodeF5S {sc : Byte} {k : Int → Bool → Instr}
    (h : ∀ v b, (k v b).wfFor expected = inField 8 v ∧
      encodeFor expected (k v b) = some (u8 v ++ [c, sc] ++ flag b ++ [Config.term])) :
    Answers (EncodesTo expected (a :: c :: rest)) (decodeF5S sc k a rest) := by
  unfold decodeF5S
  split
  · exact answers_withSub fun hs => answers_withFlag fun b hb => answers_closed fun ht =>
      ⟨by simp [h], by simp [h, hs, hb, ht]⟩
  · exact answers_error _ _

theorem answers_decodeSetCtrlMode :
    Answers (EncodesTo expected (a :: 0x46 :: rest)) (decodeSetCtrlMode a rest) := by
  unfold decodeSetCtrlMode
  split
  · exact answers_withSub fun hs => answers_withFlag fun _ hx => answers_closed fun ht =>
      encodesTo_of_address (by simp [Instr.wfFor]) rfl rfl (by simp [subCode, payload, hs, hx, ht])
  · exact answers_error _ _

theorem answers_decodeEnable : Answers (EncodesTo expected (a :: 0xF3 :: rest)) (decodeEnable a rest) := by
  unfold decodeEnable
  split
  · exact answers_withSub fun hs => answers_withFlag fun _ hx => answers_withFlag fun _ hy => answers_closed fun ht =>
      encodesTo_of_address (by simp [Instr.wfFor]) rfl rfl (by simp [subCode, payload, hs, hx, hy, ht])
  · exact answers_error _ _

theorem answers_decodeHome : Answers (EncodesTo expected (a :: 0x9A :: rest)) (decodeHome a rest) := by
  unfold decodeHome
  split
  · exact answers_withFlag fun _ hy => answers_closed fun ht =>
      encodesTo_of_address (by simp [Instr.wfFor]) rfl rfl (by simp [subCode, payload, hy, ht])
  · exact answers_error _ _

theorem answers_decodeVel : Answers (EncodesTo expected (a :: 0xF6 :: rest)) (decodeVel a rest) := by
  unfold decodeVel
  split
  · exact answers_withFlag fun _ hy => answers_closed fun ht =>
      encodesTo_of_address (by simp [Instr.wfFor]) rfl rfl (by simp [subCode, payload, hy, ht])
  · exact answers_error _ _

theorem answers_decodePos : Answers (EncodesTo expected (a :: 0xFD :: rest)) (decodePos a rest) := by
  unfold decodePos
  split
  · exact answers_withFlag fun _ hr => answers_withFlag fun _ hy => answers_closed fun ht =>
      encodesTo_of_address (by simp [Instr.wfFor]) rfl rfl (by simp [subCode, payload, hr, hy, ht])
  · exact answers_error _ _

theorem answers_decodeHomeCfg : Answers (EncodesTo expected (a :: 0x4C :: rest)) (decodeHomeCfg a rest) := by
  unfold decodeHomeCfg
  split
  · exact answers_withSub fun hs => answers_withFlag fun _ hx => answers_withFlag fun _ hu => answers_closed fun ht =>
      encodesTo_of_address (by simp [Instr.wfFor]) rfl rfl (by simp [subCode, payload, hs, hx, hu, ht])
  · exact answers_error _ _

end Formats

/-- Row by row of the opcode map, what the decoder answers for a frame encodes to it. -/
theorem answers_decodeCommand (expected a c : Byte) (rest : List Byte) :
    Answers (EncodesTo expected (a :: c :: rest)) (decodeCommand a c rest) := by
  unfold decodeCommand
  iterate 14 refine answers_ite (fun hc => hc ▸ answers_decodeF3 fun _ => ⟨rfl, rfl⟩) fun _ => ?_
  iterate 2 refine answers_ite (fun hc => hc ▸ answers_decodeF4 fun _ => ⟨rfl, rfl⟩) fun _ => ?_
  refine answers_ite (fun hc => hc ▸ answers_decodeSetCtrlMode) fun _ => ?_
  refine answers_ite (fun hc => hc ▸ answers_decodeEnable) fun _ => ?_
  refine answers_ite (fun hc => hc ▸ answers_decodeVel) fun _ => ?_
  refine answers_ite (fun hc => hc ▸ answers_decodePos) fun _ => ?_
  refine answers_ite (fun hc => hc ▸ answers_decodeF5S fun _ _ => ⟨rfl, rfl⟩) fun _ => ?_
  refine answers_ite (fun hc => hc ▸ answers_decodeF4 fun _ => ⟨rfl, rfl⟩) fun _ => ?_
  refine answers_ite (fun hc => hc ▸ answers_decodeF5S fun _ _ => ⟨rfl, rfl⟩) fun _ => ?_
  refine answers_ite (fun hc => hc ▸ answers_decodeHomeCfg) fun _ => ?_
  refine answers_ite (fun hc => hc ▸ answers_decodeHome) fun _ => ?_
  refine answers_ite (fun hc => hc ▸ answers_decodeF4 fun _ => ⟨rfl, rfl⟩) fun _ => ?_
  exact answers_error _ _

/-- Settles O17: a list of RPOS's form is its own encoding, and a command's is what its row reads. -/
theorem encodeOfDecode : Obligations.EncodeOfDecode := by
  intro expected f i h
  unfold decode at h
  split at h
  case isTrue hrpos =>
    cases h
    exact ⟨hrpos, if_pos hrpos⟩
  case isFalse =>
    split at h
    · exact answers_decodeCommand _ _ _ _ i h
    · cases h

/-- A code that is no row's passes every row of the decoder's chain. -/
theorem decodeCommand_of_not_mem (a c : Byte) (rest : List Byte) (h : ∀ row ∈ opcodeMap, c ≠ row.1) :
    decodeCommand a c rest = .error (.unknownFunction c) := by
  simp only [opcodeMap, List.forall_mem_cons, List.not_mem_nil, false_imp_iff, implies_true] at h
  simp only [decodeCommand, h, if_false]

theorem lengthByFunc_of_mem : ∀ row ∈ opcodeMap, (lengthByFunc row.1).isSome = true := by decide

/-- Settles O19: every row's code has a length, so a code without one is no row's, nor the position reply's 0x36. -/
theorem unknownFunctionCodesAreRejected : Obligations.UnknownFunctionCodesAreRejected := by
  intro expected a c rest hlen
  have hne : ∀ row ∈ opcodeMap, c ≠ row.1 := by
    rintro row hrow rfl
    simpa [hlen] using lengthByFunc_of_mem row hrow
  have hrpos : ¬ isRpos expected (a :: c :: rest) = true := by
    rw [isRpos_iff]
    rintro ⟨-, -, hcode⟩
    exact hne (0x36, "RDPARAM_36") (by decide) (Option.some.inj hcode)
  unfold decode
  rw [if_neg hrpos]
  exact decodeCommand_of_not_mem a c rest hne

/-- Settles O20: each frame is read by its row, field by field. -/
theorem writtenOutFramesDecode : Obligations.WrittenOutFramesDecode := ⟨rfl, rfl, rfl, rfl, rfl⟩

/-! ### the frames of the longest commands, and the frame of all commands -/

/-- Settles O6: R135's lists append to thirteen bytes, `be16` giving two of them and `be32` four. -/
theorem positionFrame : Obligations.PositionFrame :=
  fun _ _ _ _ _ _ _ _ => rfl

/-- Settles O7: R139's lists append to twenty bytes. -/
theorem homeConfigFrame : Obligations.HomeConfigFrame :=
  fun _ _ _ _ _ _ _ _ _ _ _ => rfl

/-- Settles O9: a command's next state is an `emit`, which writes the encoder's ports only. -/
theorem commandsLeaveOtherUnitsAlone : Obligations.CommandsLeaveOtherUnitsAlone := by
  intro i s t hi h
  obtain ⟨f, hf⟩ := exec_command i hi s
  obtain rfl := Host.Outcome.next.inj (hf.symm.trans h)
  exact ⟨⟨rfl, rfl, rfl, fun _ => rfl, rfl, rfl, rfl, rfl, rfl⟩, ⟨rfl, rfl⟩, ⟨rfl, rfl, rfl⟩, rfl⟩

end Sys2Proof
end

