-- ==== Sys2Proof/Proofs/ReceiverRules.lean ====
section
/-! PROOFS. The receiver's operations one by one (41_frame_receiver.md R162-R169, 70_reset_and_hazards.md R240), the
priority order of a step (R170), and what the operations leave unchanged. -/
namespace Sys2Proof.Machine

/-! ### single operations -/

theorem RxState.ne_accumulating (x : RxState) (h : x = .idle ∨ x = .complete) : x ≠ .accumulating := by
  rcases h with rfl | rfl <;> decide

/-- Settles O21: the trigger of R162 holds, and its effect is the stated update. -/
theorem startBeginsReception : Obligations.StartBeginsReception := by
  intro s hrst hstart hstate
  exact exec_of_trigger s .start ⟨hrst, RxState.ne_accumulating _ hstate, hstart⟩

/-- Settles O22: the trigger of R164 holds, and its effect only withholds `rx_take`. -/
theorem holdKeepsEverything : Obligations.HoldKeepsEverything := by
  intro s hrst hstart hstate
  exact exec_of_trigger s .hold ⟨hrst, RxState.ne_accumulating _ hstate, hstart⟩

/-- Settles O24: a full buffer and an available byte are the trigger of R166. -/
theorem dropSetsOverflow : Obligations.DropSetsOverflow := by
  intro s last hrst hstate hlast hclock havail hfull
  exact exec_of_trigger s .drop ⟨hrst, hstate, last, hlast, hclock, havail, hfull.ge⟩

/-- Settles O27: the trigger of R169 holds; the record keeps a fault raised before. -/
theorem clockFaultIsRecorded : Obligations.ClockFaultIsRecorded := by
  intro s last hrst hstate hlast hbehind
  have hrun := exec_of_trigger s .clockFault ⟨hrst, hstate, last, hlast, hbehind⟩
  have hrecord : s.modelFault.or (s.rxLastMs.map fun l => .clockNotMonotonic s.frIn.nowMs l) =
      some (s.modelFault.getD (.clockNotMonotonic s.frIn.nowMs last)) := by
    rw [hlast]
    cases s.modelFault <;> rfl
  rw [← hrecord]
  exact hrun

/-- Settles O28: `rst` is the whole trigger of R240. -/
theorem resetClearsReceiver : Obligations.ResetClearsReceiver :=
  fun s hrst => exec_of_trigger s .reset hrst

/-- Settles O30: one operation is selected, and it is not the other. -/
theorem unselectedOperationIsRefused : Obligations.UnselectedOperationIsRefused := by
  intro op other s hop hne
  rw [exec_frOp, whenSelected, hop]
  exact if_neg hne.symm

/-! ### the frame of the operations -/

/-- What an operation leaves of a cell: START and RESET empty it, STEP-CONSUME writes cell `rx_len`. -/
theorem frEffect_cell (op : FrOp) (s : State) (i : Nat) :
    Memory.get i (frEffect op s).rxBuf =
      if op = .start ∨ op = .reset then none
      else if op = .consume ∧ i = s.rxLen then some s.frIn.rxData
      else Memory.get i s.rxBuf := by
  cases op with
  | consume =>
    by_cases hi : i = s.rxLen
    · simp [frEffect, hi]
    · simp [frEffect, hi, Memory.get_put_other]
  | reset | start | hold | clockFault | drop | complete | wait => simp [frEffect]

theorem FrOp.takes_iff (op : FrOp) : op.takes = true ↔ op = .consume ∨ op = .drop := by
  cases op <;> decide

theorem frEffect_sameCe (op : FrOp) (s : State) : SameCe s (frEffect op s) := by
  cases op <;> exact ⟨rfl, rfl, rfl⟩

theorem frEffect_samePd (op : FrOp) (s : State) : SamePd s (frEffect op s) := by
  cases op <;> exact ⟨rfl, rfl⟩

theorem frEffect_sameRest (op : FrOp) (s : State) : SameRest s (frEffect op s) := by
  cases op <;> exact ⟨rfl, rfl, rfl⟩

/-- Settles O29: an operation that answers answers its effect, and the effects keep all this. -/
theorem receiverOperationsFrame : Obligations.ReceiverOperationsFrame := by
  intro op s t h
  rw [exec_frOp, whenSelected_next] at h
  obtain ⟨-, rfl⟩ := h
  refine ⟨frEffect_sameCe op s, frEffect_samePd op s, frEffect_sameRest op s, frEffect_frIn op s, ?_,
    frEffect_cell op s⟩
  simp only [frEffect_source, FrOp.takes_iff]

/-! ### the whole step -/

/-- A receiver step is the operation whose trigger the sample meets. -/
theorem runPoll_of_trigger (p : Poll) (s : State) (op : FrOp) (h : op.trigger (s.sample p)) :
    runPoll p s = exec op.toInstr (s.sample p) := by
  rw [runPoll, frSelect_of_trigger _ op h]

/-- A receiver step answers a next state unless the timestamp is missing in Accumulating. -/
theorem runPoll_total (p : Poll) (s : State) (h : s.rxState = .accumulating → s.rxLastMs.isSome = true) :
    ∃ t, runPoll p s = .next t := by
  obtain ⟨op, hop⟩ := frSelect_total (s.sample p) (by simpa using h)
  exact ⟨_, (runPoll_next p s _).mpr ⟨op, hop, rfl⟩⟩

/-- The sampled port `rx_avail` says whether the queue, arrivals included, holds a byte. -/
theorem State.sample_rxAvail_iff (p : Poll) (s : State) :
    (s.sample p).frIn.rxAvail = true ↔ s.source ++ p.arrivals ≠ [] := by
  simp

/-- R170's chain in Accumulating, without `rst`. -/
theorem runPoll_accumulating (p : Poll) (s : State) (last : Nat) (hrst : p.rst = false)
    (hstate : s.rxState = .accumulating) (hlast : s.rxLastMs = some last) :
    runPoll p s =
      if p.nowMs < last then exec .rxClockFault (s.sample p)
      else if s.source ++ p.arrivals ≠ [] ∧ s.rxLen < s.params.rxCap then exec .rxConsume (s.sample p)
      else if s.source ++ p.arrivals ≠ [] then exec .rxDrop (s.sample p)
      else if p.nowMs - last > s.params.quietMs then exec .rxComplete (s.sample p)
      else exec .rxWait (s.sample p) := by
  have hrst' := (State.sample_rst p s).trans hrst
  have hstate' := (State.sample_rxState p s).trans hstate
  have hlast' := (State.sample_rxLastMs p s).trans hlast
  simp only [← State.sample_rxAvail_iff, ← State.sample_nowMs p s, ← State.sample_rxLen p s,
    ← State.sample_params p s]
  split_ifs with hbehind hconsume havail hquiet
  · exact runPoll_of_trigger p s .clockFault ⟨hrst', hstate', last, hlast', hbehind⟩
  · exact runPoll_of_trigger p s .consume
      ⟨hrst', hstate', last, hlast', Nat.le_of_not_lt hbehind, hconsume.1, hconsume.2⟩
  · exact runPoll_of_trigger p s .drop ⟨hrst', hstate', last, hlast', Nat.le_of_not_lt hbehind, havail,
      Nat.le_of_not_lt fun hroom => hconsume ⟨havail, hroom⟩⟩
  · exact runPoll_of_trigger p s .complete ⟨hrst', hstate', last, hlast', Nat.le_of_not_lt hbehind,
      Bool.eq_false_iff.mpr havail, hquiet⟩
  · exact runPoll_of_trigger p s .wait ⟨hrst', hstate', last, hlast', Nat.le_of_not_lt hbehind,
      Bool.eq_false_iff.mpr havail, Nat.le_of_not_lt hquiet⟩

/-- Settles O31: RESET, START and HOLD by their triggers, and in Accumulating the chain above. -/
theorem pollFollowsPriority : Obligations.PollFollowsPriority := by
  intro p s last hstamp
  refine ⟨?_, runPoll_total p s fun hstate => by simp [hstamp hstate]⟩
  by_cases hrst : p.rst = true
  · rw [if_pos hrst]
    exact runPoll_of_trigger p s .reset ((State.sample_rst p s).trans hrst)
  rw [if_neg hrst]
  have hrst' : p.rst = false := Bool.eq_false_iff.mpr hrst
  by_cases hidle : s.rxState = .idle ∨ s.rxState = .complete
  · have hstate := RxState.ne_accumulating _ hidle
    rw [if_pos hidle]
    split_ifs with hstart
    · exact runPoll_of_trigger p s .start (by simp [FrOp.trigger, hrst', hstate, hstart])
    · exact runPoll_of_trigger p s .hold (by simp [FrOp.trigger, hrst', hstate, hstart])
  · have hstate : s.rxState = .accumulating := not_not.mp (mt (RxState.idle_or_complete _) hidle)
    rw [if_neg hidle]
    exact runPoll_accumulating p s last hrst' hstate (hstamp hstate)

/-! ### inputs that do not matter -/

/-- Sampling with the other value of `start`. -/
theorem State.sample_with_start (p : Poll) (s : State) (b : Bool) :
    s.sample { p with start := b } = { s.sample p with frIn := { (s.sample p).frIn with start := b } } := by
  unfold State.sample
  cases s.source ++ p.arrivals <;> rfl

/-- In Accumulating the selection does not read `start`. -/
theorem frSelect_with_start (s : State) (b : Bool) (h : s.rxState = .accumulating) :
    frSelect { s with frIn := { s.frIn with start := b } } = frSelect s := by
  simp [frSelect, h]

/-- No operation's effect reads `start`. -/
theorem frEffect_with_start (op : FrOp) (s : State) (b : Bool) :
    frEffect op { s with frIn := { s.frIn with start := b } } =
      { frEffect op s with frIn := { (frEffect op s).frIn with start := b } } := by
  cases op <;> rfl

/-- Settles O33: in Accumulating neither the selection nor the effect reads `start`. -/
theorem startIsIgnoredWhileAccumulating : Obligations.StartIsIgnoredWhileAccumulating := by
  intro p s hstate hstamp
  obtain ⟨op, hop⟩ := frSelect_total (s.sample p) (by simp [hstamp])
  have hrun : ∀ b, runPoll { p with start := b } s =
      .next { frEffect op (s.sample p) with frIn := { (frEffect op (s.sample p)).frIn with start := b } } := by
    intro b
    rw [runPoll_next, State.sample_with_start]
    exact ⟨op, by rw [frSelect_with_start _ _ (by simpa using hstate), hop], (frEffect_with_start op _ b).symm⟩
  exact ⟨_, _, hrun true, hrun false, rfl⟩

/-- An operation that stores no byte does not read `rx_data`. -/
theorem frEffect_with_rxData (op : FrOp) (s : State) (d : Byte) (h : op ≠ .consume) :
    frEffect op { s with frIn := { s.frIn with rxData := d } } =
      { frEffect op s with frIn := { (frEffect op s).frIn with rxData := d } } := by
  cases op with
  | consume => exact absurd rfl h
  | reset | start | hold | clockFault | drop | complete | wait => rfl

/-- Settles O34: the selection never reads `rx_data`, and STEP-CONSUME, which does, needs an available byte. -/
theorem idleDataIsNeverRead : Obligations.IdleDataIsNeverRead := by
  intro op s t d havail h
  rw [exec_frOp, whenSelected_next] at h
  obtain ⟨hop, rfl⟩ := h
  have hne : op ≠ .consume := by
    rintro rfl
    obtain ⟨-, -, -, -, -, htrue, -⟩ := frSelect_trigger s _ hop
    exact absurd (havail.symm.trans htrue) (by decide)
  have hop' : frSelect { s with frIn := { s.frIn with rxData := d } } = .value op := hop
  rw [exec_frOp, whenSelected_of_selected _ _ _ hop', frEffect_with_rxData op s d hne]

/-! ### which operations write a register -/

/-- Settles O38: a command and DECODE write no register of the receiver; for each operation of the receiver the trigger
says from which `rx_state` it starts, and its effect which registers it writes. -/
theorem onlyTheseOperationsWriteRegisters : Obligations.OnlyTheseOperationsWriteRegisters := by
  intro i s t h
  rcases exec_next i s t h with ⟨-, f, rfl⟩ | ⟨f, rfl, rfl⟩ | ⟨op, rfl, hop, rfl⟩
  · simp +contextual
  · simp +contextual
  · have htrigger := frSelect_trigger s op hop
    cases op with
    | reset => simp +contextual [frEffect, FrOp.toInstr]
    | start =>
      obtain ⟨-, hstate, -⟩ := htrigger
      simp +contextual [frEffect, FrOp.toInstr, hstate]
    | complete =>
      obtain ⟨-, hstate, -⟩ := htrigger
      simp +contextual [frEffect, FrOp.toInstr, hstate]
    | hold | clockFault | consume | drop | wait => simp +contextual [frEffect, FrOp.toInstr]

end Sys2Proof.Machine
end

