-- ==== Sys2Proof/Proofs/Invariants.lean ====
section
/-! PROOFS. The invariants of the block (41_frame_receiver.md R171, R172), over every instruction and every action, and
where a ModelFault is met (60_exceptions.md R214, R226). -/
namespace Sys2Proof

open Machine

/-! ### the receiver's registers -/

/-- The parameters and the receiver's registers, but for the ModelFault record, are the same. -/
structure SameRegs (s t : State) : Prop where
  params : t.params = s.params
  rxState : t.rxState = s.rxState
  rxLen : t.rxLen = s.rxLen
  rxBuf : t.rxBuf = s.rxBuf
  rxLastMs : t.rxLastMs = s.rxLastMs
  rxOverflow : t.rxOverflow = s.rxOverflow

theorem SameRegs.trans {s t u : State} (h : SameRegs s t) (h' : SameRegs t u) : SameRegs s u :=
  ⟨h'.params.trans h.params, h'.rxState.trans h.rxState, h'.rxLen.trans h.rxLen, h'.rxBuf.trans h.rxBuf,
    h'.rxLastMs.trans h.rxLastMs, h'.rxOverflow.trans h.rxOverflow⟩

theorem Machine.State.sample_sameRegs (p : Poll) (s : State) : SameRegs s (s.sample p) := by
  constructor <;> simp

theorem Machine.State.afterFetch_sameRegs (s : State) : SameRegs s s.afterFetch := by
  constructor <;> simp

theorem Machine.State.emit_sameRegs (i : Instr) (f : List Byte) (s : State) : SameRegs s (s.emit i f) :=
  ⟨rfl, rfl, rfl, rfl, rfl, rfl⟩

theorem Machine.State.drivePd_sameRegs (f : List Byte) (r : PdResult) (s : State) : SameRegs s (s.drivePd f r) :=
  ⟨rfl, rfl, rfl, rfl, rfl, rfl⟩

theorem FrInv.of_sameRegs {s t : State} (hs : FrInv s) (h : SameRegs s t) : FrInv t where
  legal := h.params ▸ hs.legal
  memWf := h.rxBuf ▸ hs.memWf
  lenCap := by rw [h.rxLen, h.params]; exact hs.lenCap
  overflowFull := by rw [h.rxOverflow, h.rxLen, h.params]; exact hs.overflowFull
  cells := by rw [h.rxBuf, h.rxLen]; exact hs.cells
  idleEmpty := by rw [h.rxState, h.rxLen, h.rxOverflow]; exact hs.idleEmpty
  stamp := by rw [h.rxLastMs, h.rxState]; exact hs.stamp

theorem FrameOf.of_sameRegs {ds : List Byte} {s t : State} (hs : FrameOf ds s) (h : SameRegs s t) : FrameOf ds t where
  len := by rw [h.rxLen, h.params]; exact hs.len
  cells := by rw [h.rxBuf, h.params]; exact hs.cells
  overflow := by rw [h.rxOverflow, h.params]; exact hs.overflow

/-! ### the receiver's invariant, operation by operation -/

/-- A stored byte fills the first cell without a value. -/
theorem FrInv.storeByte {s : State} (hs : FrInv s) (hstate : s.rxState = .accumulating)
    (hroom : s.rxLen < s.params.rxCap) : FrInv s.storeByte where
  legal := hs.legal
  memWf := Memory.wf_put _ _ _ hs.memWf
  lenCap := hroom
  overflowFull := fun hover => absurd (hs.overflowFull hover) hroom.ne
  cells := by
    intro i
    by_cases hi : i = s.rxLen
    · simp [hi]
    · simp only [State.storeByte_rxBuf, State.storeByte_rxLen, Memory.get_put_other i _ _ _ hi, hs.cells]
      omega
  idleEmpty := by simp [hstate]
  stamp := by simp [hstate]

/-- The effect of the selected operation keeps the receiver's invariant. -/
theorem FrInv.frEffect_of_trigger {op : FrOp} {s : State} (hop : op.trigger s) (hs : FrInv s) :
    FrInv (frEffect op s) := by
  cases op with
  | reset =>
    exact { legal := hs.legal, memWf := rfl, lenCap := Nat.zero_le _, overflowFull := nofun,
            cells := by simp [frEffect], idleEmpty := fun _ => ⟨rfl, rfl⟩,
            stamp := by simp [frEffect] }
  | start =>
    exact { legal := hs.legal, memWf := rfl, lenCap := Nat.zero_le _, overflowFull := nofun,
            cells := by simp [frEffect], idleEmpty := nofun, stamp := by simp [frEffect] }
  | hold | clockFault | wait => exact hs.of_sameRegs ⟨rfl, rfl, rfl, rfl, rfl, rfl⟩
  | consume =>
    obtain ⟨-, hstate, last, -, -, -, hroom⟩ := hop
    exact (hs.storeByte hstate hroom).of_sameRegs ⟨rfl, rfl, rfl, rfl, rfl, rfl⟩
  | drop =>
    obtain ⟨-, hstate, last, -, -, -, hfull⟩ := hop
    exact { legal := hs.legal, memWf := hs.memWf, lenCap := hs.lenCap,
            overflowFull := fun _ => Nat.le_antisymm hs.lenCap hfull, cells := hs.cells,
            idleEmpty := by simp [frEffect, hstate], stamp := by simp [frEffect, hstate] }
  | complete =>
    obtain ⟨-, -, last, hlast, -⟩ := hop
    exact { legal := hs.legal, memWf := hs.memWf, lenCap := hs.lenCap, overflowFull := hs.overflowFull,
            cells := hs.cells, idleEmpty := nofun, stamp := by simp [frEffect, hlast] }

/-! ### the invariant of the block -/

theorem CeInv.of_sameCe {s t : State} (hs : CeInv s) (h : SameCe s t) (hparams : t.params = s.params) : CeInv t where
  len := by rw [h.ceLen, h.ceFrame]; exact hs.len
  undriven := by rw [h.ceIn, h.ceFrame]; exact hs.undriven
  driven := by rw [h.ceIn, h.ceFrame, hparams]; exact hs.driven

theorem PdInv.of_samePd {s t : State} (hs : PdInv s) (h : SamePd s t) (hparams : t.params = s.params) : PdInv t := by
  rw [PdInv, h.pd, h.pdIn, hparams]
  exact hs

theorem Inv.of_same {s t : State} (hs : Inv s) (hregs : SameRegs s t) (hce : SameCe s t) (hpd : SamePd s t) : Inv t :=
  ⟨hs.fr.of_sameRegs hregs, hs.ce.of_sameCe hce hregs.params, PdInv.of_samePd hs.pd hpd hregs.params⟩

theorem Inv.sample {s : State} (p : Poll) (hs : Inv s) : Inv (s.sample p) :=
  hs.of_same (s.sample_sameRegs p) ⟨by simp, by simp, by simp⟩ ⟨by simp, by simp⟩

theorem Inv.afterFetch {s : State} (hs : Inv s) : Inv s.afterFetch :=
  hs.of_same s.afterFetch_sameRegs ⟨by simp, by simp, by simp⟩ ⟨by simp, by simp⟩

theorem Inv.with_script {s : State} (es : List EnvEvent) (hs : Inv s) : Inv { s with script := es } :=
  hs.of_same ⟨rfl, rfl, rfl, rfl, rfl, rfl⟩ ⟨rfl, rfl, rfl⟩ ⟨rfl, rfl⟩

theorem Inv.frEffect_of_trigger {op : FrOp} {s : State} (hop : op.trigger s) (hs : Inv s) : Inv (frEffect op s) :=
  ⟨hs.fr.frEffect_of_trigger hop, hs.ce.of_sameCe (frEffect_sameCe op s) (frEffect_sameRest op s).params,
    PdInv.of_samePd hs.pd (frEffect_samePd op s) (frEffect_sameRest op s).params⟩

/-- Every instruction keeps the invariant of the block, in every state that meets it. -/
theorem Inv.exec_next {i : Instr} {s t : State} (hs : Inv s) (h : exec i s = .next t) : Inv t := by
  rcases Instr.kinds i with hi | ⟨f, rfl⟩ | ⟨op, rfl⟩
  · obtain ⟨a, c, -, -, hexec, henc⟩ := exec_command_encodeFor i hi
    obtain rfl := Host.Outcome.next.inj ((hexec s).symm.trans h)
    refine ⟨hs.fr.of_sameRegs (s.emit_sameRegs i _), ⟨rfl, nofun, ?_⟩,
      PdInv.of_samePd hs.pd ⟨rfl, rfl⟩ rfl⟩
    rintro j hj
    obtain rfl := Option.some.inj hj
    exact ⟨hi, henc _⟩
  · obtain rfl := Host.Outcome.next.inj ((exec_posReply f s).symm.trans h)
    exact ⟨hs.fr.of_sameRegs (s.drivePd_sameRegs f _), hs.ce.of_sameCe ⟨rfl, rfl, rfl⟩ rfl, rfl⟩
  · rw [exec_frOp, whenSelected_next] at h
    obtain ⟨hop, rfl⟩ := h
    exact hs.frEffect_of_trigger (frSelect_trigger s op hop)

theorem Inv.runPoll_next {p : Poll} {s t : State} (hs : Inv s) (h : runPoll p s = .next t) : Inv t := by
  obtain ⟨op, hop, rfl⟩ := (Machine.runPoll_next p s t).mp h
  exact (hs.sample p).frEffect_of_trigger (frSelect_trigger _ op hop)

/-- Settles O36: an action reads, runs one instruction or steps the receiver, and each keeps the invariant. -/
theorem stepKeepsBlockInvariant : Obligations.StepKeepsBlockInvariant := by
  intro s t hs h
  obtain ⟨-, hrun⟩ := (step_next s t).mp h
  rcases runEvent_next _ _ _ hrun with rfl | ⟨i, hi⟩ | ⟨p, -, hp⟩
  · exact hs.afterFetch
  · exact hs.afterFetch.exec_next hi
  · exact hs.afterFetch.runPoll_next hp

/-- Settles O37: the fields of the reset state. -/
theorem resetStateValues : Obligations.ResetStateValues :=
  ⟨rfl, rfl, fun _ => rfl, rfl, rfl, rfl, rfl⟩

/-- Settles O35: the receiver is Idle and empty, no command is driven, and `pd` is what DECODE gives for the empty
list. -/
theorem resetStateMeetsInvariant : Obligations.ResetStateMeetsInvariant where
  fr := { legal := by decide, memWf := rfl, lenCap := by decide, overflowFull := nofun, cells := by simp [State.reset],
          idleEmpty := fun _ => ⟨rfl, rfl⟩, stamp := by decide }
  ce := { len := rfl, undriven := fun _ => rfl, driven := nofun }
  pd := rfl

/-! ### ModelFaults -/

/-- Settles O39: `step` tests the record first. -/
theorem recordedFaultStopsMachine : Obligations.RecordedFaultStopsMachine := by
  intro s r h
  rw [step, stepOnce, h]

/-- No instruction faults. -/
theorem exec_ne_fault (i : Instr) (s : State) (e : Fault) : exec i s ≠ .fault e := by
  rcases Instr.kinds i with hi | ⟨f, rfl⟩ | ⟨op, rfl⟩
  · obtain ⟨f, hf⟩ := exec_command i hi s
    simp [hf]
  · simp [exec_posReply]
  · rw [exec_frOp, whenSelected]
    split
    · split <;> simp
    · simp

theorem Machine.Read.asStep_ne_fault {α : Type} (r : Read α) (s : State) (e : Fault) : r.asStep s ≠ .fault e := by
  cases r <;> simp [Read.asStep]

/-- No action faults. -/
theorem runEvent_ne_fault (a : EnvEvent) (s : State) (e : Fault) : runEvent a s ≠ .fault e := by
  cases a with
  | decode f => exact exec_ne_fault (.posReply f) s e
  | encode cmd | decodeFrame | poll p | word bs =>
    simp only [runEvent, runPoll]
    split
    · exact exec_ne_fault _ _ e
    · exact nofun
  | read r => cases r <;> exact Read.asStep_ne_fault _ s e

/-- Settles O58: what `step` does without a record is an action, and none faults. -/
theorem modelFaultIsTheOnlyFault : Obligations.ModelFaultIsTheOnlyFault := by
  refine ⟨exec_ne_fault, fun s e => ⟨fun h => ?_, ?_⟩⟩
  · cases hfault : s.modelFault with
    | none =>
      rw [step, stepOnce, hfault] at h
      exact absurd h (runEvent_ne_fault _ _ _)
    | some r =>
      rw [recordedFaultStopsMachine s r hfault] at h
      exact ⟨r, rfl, (Host.Outcome.fault.inj h).symm⟩
  · rintro ⟨r, hfault, rfl⟩
    exact recordedFaultStopsMachine s r hfault

/-- Only CLOCK-FAULT raises a ModelFault. -/
theorem frEffect_modelFault_of_ne (op : FrOp) (s : State) (h : op ≠ .clockFault) :
    (frEffect op s).modelFault = s.modelFault := by
  cases op with
  | clockFault => exact absurd rfl h
  | reset | start | hold | consume | drop | complete | wait => rfl

/-- An operation's timestamp is none, the sampled clock, or the one before. -/
theorem frEffect_rxLastMs_le (op : FrOp) (s : State) (h : ∀ last, s.rxLastMs = some last → last ≤ s.frIn.nowMs) :
    ∀ last, (frEffect op s).rxLastMs = some last → last ≤ s.frIn.nowMs := by
  cases op with
  | reset | start | consume | drop => simp [frEffect]
  | hold | clockFault | complete | wait => exact h

/-- One receiver step with a clock not behind the timestamp. -/
theorem runPoll_clockDuty (p : Poll) (s : State) (hs : Inv s) (hfault : s.modelFault = none)
    (hclock : ∀ last, s.rxLastMs = some last → last ≤ p.nowMs) :
    ∃ t, runPoll p s = .next t ∧ t.modelFault = none ∧ Inv t ∧ ∀ last, t.rxLastMs = some last → last ≤ p.nowMs := by
  obtain ⟨op, hop⟩ := frSelect_total (s.sample p) fun hstate =>
    (hs.sample p).fr.stamp.mpr (by rw [hstate]; decide)
  have hne : op ≠ .clockFault := by
    rintro rfl
    obtain ⟨-, -, last, hlast, hbehind⟩ := frSelect_trigger _ _ hop
    simp only [State.sample_rxLastMs, State.sample_nowMs] at hlast hbehind
    exact absurd (hclock last hlast) (Nat.not_le.mpr hbehind)
  have hrun : runPoll p s = .next (frEffect op (s.sample p)) := (runPoll_next p s _).mpr ⟨op, hop, rfl⟩
  refine ⟨_, hrun, by simp [frEffect_modelFault_of_ne op _ hne, hfault], hs.runPoll_next hrun, ?_⟩
  simpa using frEffect_rxLastMs_le op (s.sample p) (by simpa using hclock)

/-- Settles O40: by induction on the run, the clock of each step being the bound on the timestamp for the next. -/
theorem clockDutyMeansNoFault : Obligations.ClockDutyMeansNoFault := by
  intro ps
  induction ps with
  | nil => exact fun s _ hs hfault _ _ => ⟨s, runPolls_nil s, hfault, hs⟩
  | cons p ps ih =>
    rintro s t0 hs hfault hstamp ⟨hp, hps⟩
    obtain ⟨u, hu, hufault, hus, hustamp⟩ := runPoll_clockDuty p { s with script := ps.map .poll ++ s.script }
      (hs.with_script _) hfault fun last hlast => (hstamp last hlast).trans hp
    rw [runPolls_cons p ps s hfault, hu]
    exact ih { u with script := s.script } p.nowMs (hus.with_script _) hufault hustamp hps

end Sys2Proof
end

