-- ==== Sys2Proof/Proofs/Receptions.lean ====
section
/-! PROOFS. The contents of a frame (41_frame_receiver.md R171, R177) step by step and over a reception, and when a
silent line ends one (R173, R174). -/
namespace Sys2Proof

open Machine

/-! ### the frame of the bytes consumed -/

/-- START and RESET leave the frame of no bytes. -/
theorem FrameOf.of_empty {s : State} (hlen : s.rxLen = 0) (hbuf : s.rxBuf = []) (hover : s.rxOverflow = false) :
    FrameOf [] s :=
  ⟨by simp [hlen], by simp [hbuf], by simp [hover]⟩

/-- A byte stored below capacity extends the frame. -/
theorem FrameOf.storeByte {ds : List Byte} {s : State} (hs : FrameOf ds s) (hroom : s.rxLen < s.params.rxCap) :
    FrameOf (ds ++ [s.frIn.rxData]) s.storeByte := by
  obtain ⟨hlen, hcells, hover⟩ := hs
  have hds : ds.length < s.params.rxCap := by omega
  have hlen' : s.rxLen = ds.length := by omega
  refine ⟨?_, fun i => ?_, ?_⟩
  · simp only [State.storeByte_rxLen, State.storeByte_params, List.length_append, List.length_singleton]
    omega
  · rw [State.storeByte_rxBuf, State.storeByte_params, List.take_of_length_le (by simpa using hds), hlen']
    by_cases hi : i = ds.length
    · simp [hi]
    · rw [Memory.get_put_other i _ _ _ hi, hcells, List.take_of_length_le hds.le, List.getElem?_append]
      split
      · rfl
      · rw [List.getElem?_eq_none (by omega), List.getElem?_eq_none (by simp; omega)]
  · simp only [State.storeByte_rxOverflow, State.storeByte_params, hover, List.length_append, List.length_singleton]
    omega

/-- A byte beyond capacity sets the overflow flag and leaves the stored bytes. -/
theorem FrameOf.overflowByte {ds : List Byte} {s : State} (b : Byte) (hs : FrameOf ds s)
    (hfull : s.params.rxCap ≤ s.rxLen) : FrameOf (ds ++ [b]) s.overflowByte := by
  obtain ⟨hlen, hcells, hover⟩ := hs
  have hds : s.params.rxCap ≤ ds.length := by omega
  refine ⟨?_, fun i => ?_, ?_⟩
  · simp only [State.overflowByte_rxLen, State.overflowByte_params, List.length_append, List.length_singleton]
    omega
  · rw [State.overflowByte_rxBuf, State.overflowByte_params, List.take_append_of_le_length hds, hcells]
  · simp only [State.overflowByte_rxOverflow, State.overflowByte_params, List.length_append, List.length_singleton,
      true_iff]
    omega

/-- The bytes consumed in the reception after an operation of the receiver. -/
def FrOp.bytesAfter (ds : List Byte) (b : Byte) : FrOp → List Byte
  | .reset | .start => []
  | .consume | .drop => ds ++ [b]
  | .hold | .clockFault | .complete | .wait => ds

/-- The effect of the selected operation keeps the frame that of the bytes consumed. -/
theorem FrameOf.frEffect_of_trigger {ds : List Byte} {op : FrOp} {s : State} (hs : FrameOf ds s)
    (hop : op.trigger s) : FrameOf (FrOp.bytesAfter ds s.frIn.rxData op) (frEffect op s) := by
  cases op with
  | reset | start => exact .of_empty rfl rfl rfl
  | consume =>
    obtain ⟨-, -, last, -, -, -, hroom⟩ := hop
    exact (hs.storeByte hroom).of_sameRegs ⟨rfl, rfl, rfl, rfl, rfl, rfl⟩
  | drop =>
    obtain ⟨-, -, last, -, -, -, hfull⟩ := hop
    exact (hs.overflowByte _ hfull).of_sameRegs ⟨rfl, rfl, rfl, rfl, rfl, rfl⟩
  | hold | clockFault | wait => exact hs.of_sameRegs ⟨rfl, rfl, rfl, rfl, rfl, rfl⟩
  | complete => exact ⟨hs.len, hs.cells, hs.overflow⟩

/-- The bytes consumed after the selected operation, told from the step's inputs and `rx_take`. -/
theorem FrOp.bytesAfter_of_trigger {op : FrOp} {s : State} (ds : List Byte) (b : Byte) (hop : op.trigger s) :
    FrOp.bytesAfter ds b op =
      if s.frIn.rst = true ∨ (s.frIn.start = true ∧ s.rxState ≠ .accumulating) then []
      else if op.takes = true then ds ++ [b]
      else ds := by
  cases op with
  | reset => exact (if_pos (.inl hop)).symm
  | start =>
    obtain ⟨-, hstate, hstart⟩ := hop
    exact (if_pos (.inr ⟨hstart, hstate⟩)).symm
  | hold =>
    obtain ⟨hrst, -, hstart⟩ := hop
    simp [hrst, hstart, FrOp.bytesAfter, FrOp.takes]
  | clockFault | consume | drop | complete | wait =>
    obtain ⟨hrst, hstate, -⟩ := hop
    simp [hrst, hstate, FrOp.bytesAfter, FrOp.takes]

/-- A receiver step keeps the frame that of the bytes consumed. -/
theorem FrameOf.runPoll_next {ds : List Byte} {p : Poll} {s t : State} (hs : FrameOf ds s)
    (h : runPoll p s = .next t) :
    FrameOf (if p.rst = true ∨ (p.start = true ∧ s.rxState ≠ .accumulating) then []
      else if t.rxTake = true then ds ++ [t.frIn.rxData] else ds) t := by
  obtain ⟨op, hop, rfl⟩ := (Machine.runPoll_next p s t).mp h
  have htrigger := frSelect_trigger _ op hop
  have hframe := (hs.of_sameRegs (s.sample_sameRegs p)).frEffect_of_trigger htrigger
  rw [FrOp.bytesAfter_of_trigger ds _ htrigger] at hframe
  simpa using hframe

/-- An instruction that is no operation of the receiver leaves its registers. -/
theorem exec_sameRegs {i : Instr} {s t : State} (hi : i.isCommand = true ∨ ∃ f, i = .posReply f)
    (h : exec i s = .next t) : SameRegs s t := by
  rcases hi with hi | ⟨f, rfl⟩
  · obtain ⟨f, hf⟩ := exec_command i hi s
    obtain rfl := Host.Outcome.next.inj (hf.symm.trans h)
    exact s.emit_sameRegs i f
  · obtain rfl := Host.Outcome.next.inj ((exec_posReply f s).symm.trans h)
    exact s.drivePd_sameRegs f _

/-- Every action but a step of the receiver leaves its registers. -/
theorem runEvent_sameRegs {e : EnvEvent} {s t : State} (he : ∀ p, e ≠ .poll p) (h : runEvent e s = .next t) :
    SameRegs s t := by
  cases e with
  | poll p => exact absurd rfl (he p)
  | read r =>
    obtain rfl := runRead_next r s t h
    exact ⟨rfl, rfl, rfl, rfl, rfl, rfl⟩
  | decode f => exact exec_sameRegs (.inr ⟨f, rfl⟩) h
  | encode cmd =>
    simp only [runEvent] at h
    split at h
    next hcmd => exact exec_sameRegs (.inl hcmd) h
    next => cases h
  | decodeFrame =>
    simp only [runEvent] at h
    split at h
    next f _ => exact exec_sameRegs (.inr ⟨f, rfl⟩) h
    next => cases h
  | word bs =>
    simp only [runEvent] at h
    split at h
    next i hi => exact exec_sameRegs ((decode_kinds _ bs i hi).imp_right fun hreply => ⟨bs, hreply⟩) h
    next => cases h

/-- Settles O59: a step of the receiver appends the byte it took, START and RESET begin anew, and no other action
touches the receiver's registers. -/
theorem stepKeepsFrameContents : Obligations.StepKeepsFrameContents := by
  refine ⟨.of_empty rfl rfl rfl, fun ds s t hs h => ?_⟩
  obtain ⟨-, hrun⟩ := (step_next s t).mp h
  have hfetch := hs.of_sameRegs s.afterFetch_sameRegs
  unfold bytesAfter
  cases he : s.nextEvent with
  | poll p =>
    rw [he] at hrun
    simpa using hfetch.runPoll_next hrun
  | encode | decode | decodeFrame | read | word =>
    exact hfetch.of_sameRegs (runEvent_sameRegs (by simp [he]) hrun)

/-! ### a reception -/

/-- A receiver step without `rst` and START consumes a list of bytes, none or one, off the front of the queue. -/
theorem FrameOf.runPoll_consumed {ds : List Byte} {p : Poll} {s t : State} (hs : FrameOf ds s)
    (hp : p.rst = false ∧ p.start = false) (h : runPoll p s = .next t) :
    ∃ es, s.source ++ p.arrivals = es ++ t.source ∧ FrameOf (ds ++ es) t := by
  have hframe := hs.runPoll_next h
  obtain ⟨-, htaken, hkept⟩ := takeRemovesExactlyTheHead p s t h
  rw [if_neg (by simp [hp])] at hframe
  cases ht : t.rxTake with
  | true => exact ⟨[t.frIn.rxData], htaken ht, by simpa [ht] using hframe⟩
  | false => exact ⟨[], (hkept ht).symm, by simpa [ht] using hframe⟩

theorem runPoll_params {p : Poll} {s t : State} (h : runPoll p s = .next t) : t.params = s.params := by
  obtain ⟨op, -, rfl⟩ := (Machine.runPoll_next p s t).mp h
  rw [(frEffect_sameRest op _).params, State.sample_params]

/-- A run with a first step answers only from a state without a recorded ModelFault. -/
theorem modelFault_of_runPolls_cons {p : Poll} {ps : List Poll} {s t : State} (h : runPolls (p :: ps) s = .next t) :
    s.modelFault = none := by
  cases hfault : s.modelFault with
  | none => rfl
  | some r =>
    rw [runPolls, List.map_cons, runScript_faulted _ _ s r hfault] at h
    cases h

/-- A run of receiver steps, taken apart: its first step, in a state that differs in the script, and the rest. -/
theorem runPolls_cons_next {p : Poll} {ps : List Poll} {s t : State} (h : runPolls (p :: ps) s = .next t) :
    ∃ u, runPoll p { s with script := ps.map .poll ++ s.script } = .next u ∧
      runPolls ps { u with script := s.script } = .next t := by
  rw [runPolls_cons p ps s (modelFault_of_runPolls_cons h)] at h
  split at h
  next u hu => exact ⟨u, hu, h⟩
  next => cases h
  next => cases h

/-- Over a run without `rst` and START, the bytes consumed and the queue left are together the bytes offered. -/
theorem FrameOf.runPolls_consumed {ps : List Poll} {ds : List Byte} {s t : State} (hs : FrameOf ds s)
    (hps : ∀ p ∈ ps, p.rst = false ∧ p.start = false) (h : runPolls ps s = .next t) :
    ∃ es, offered ps s = es ++ t.source ∧ FrameOf (ds ++ es) t ∧ t.params = s.params := by
  induction ps generalizing ds s with
  | nil =>
    obtain rfl := Host.Outcome.next.inj ((runPolls_nil s).symm.trans h)
    exact ⟨[], by simp [offered], by simpa using hs, rfl⟩
  | cons p ps ih =>
    obtain ⟨hp, hps⟩ := List.forall_mem_cons.mp hps
    obtain ⟨u, hu, hrest⟩ := runPolls_cons_next h
    have hs' : FrameOf ds { s with script := ps.map .poll ++ s.script } := ⟨hs.len, hs.cells, hs.overflow⟩
    obtain ⟨bs, hbs, hframe⟩ := hs'.runPoll_consumed hp hu
    have hparamsu := runPoll_params hu
    obtain ⟨es, hes, hframe', hparams⟩ :=
      ih (s := { u with script := s.script }) ⟨hframe.len, hframe.cells, hframe.overflow⟩ hps hrest
    refine ⟨bs ++ es, ?_, by simpa using hframe', hparams.trans hparamsu⟩
    calc offered (p :: ps) s = (s.source ++ p.arrivals) ++ ps.flatMap Poll.arrivals := by simp [offered]
      _ = bs ++ offered ps { u with script := s.script } := by rw [hbs]; simp [offered]
      _ = bs ++ es ++ t.source := by rw [hes, List.append_assoc]

/-- Settles O41: a fresh reception holds the frame of no bytes, and the bytes consumed over the run are the first of
those offered. -/
theorem receptionStoresArrivalsInOrder : Obligations.ReceptionStoresArrivalsInOrder := by
  intro ps s t _ hlen hbuf hover hps h
  obtain ⟨es, hes, ⟨hlen', hcells, hover'⟩, hparams⟩ := (FrameOf.of_empty hlen hbuf hover).runPolls_consumed hps h
  rw [List.nil_append] at hlen' hcells hover'
  rw [hparams] at hlen' hcells hover'
  refine ⟨es.length, by simp [hes], by simp [hes], hlen', fun i hi => ?_, fun i hi => ?_, hover'⟩
  · rw [hcells, List.getElem?_take_of_lt (by omega), hes, List.getElem?_append_left (by omega)]
  · rw [hcells, List.getElem?_eq_none (by simp; omega)]

/-! ### a silent line -/

/-- A receiver step with no byte up to `QUIET_MS` after the timestamp is STEP-WAIT: the registers are kept. -/
theorem runPoll_silent {p : Poll} {s : State} {last : Nat} (hstate : s.rxState = .accumulating)
    (hlast : s.rxLastMs = some last) (hsource : s.source = []) (hrst : p.rst = false) (harr : p.arrivals = [])
    (hclock : last ≤ p.nowMs) (hquiet : p.nowMs ≤ last + s.params.quietMs) :
    ∃ t, runPoll p s = .next t ∧ SameRegs s t ∧ t.modelFault = s.modelFault ∧ t.source = [] := by
  have htrigger : FrOp.wait.trigger (s.sample p) := by
    simp [FrOp.trigger, hrst, hstate, hlast, hclock, hsource, harr]
    omega
  refine ⟨(s.sample p).takeNone, ?_, ?_, by simp, by simp [hsource, harr]⟩
  · rw [runPoll_of_trigger p s .wait htrigger, exec_of_trigger _ .wait htrigger, frEffect]
  · constructor <;> simp

/-- A receiver step with no byte later than `QUIET_MS` after the timestamp is STEP-COMPLETE. -/
theorem runPoll_ends {p : Poll} {s : State} {last : Nat} (hstate : s.rxState = .accumulating)
    (hlast : s.rxLastMs = some last) (hsource : s.source = []) (hrst : p.rst = false) (harr : p.arrivals = [])
    (hlate : last + s.params.quietMs < p.nowMs) :
    runPoll p s = .next (s.sample p).finishReception.takeNone := by
  have htrigger : FrOp.complete.trigger (s.sample p) := by
    simp [FrOp.trigger, hrst, hstate, hlast, hsource, harr]
    omega
  rw [runPoll_of_trigger p s .complete htrigger, exec_of_trigger _ .complete htrigger, frEffect]

/-- Silent steps before others change nothing of the receiver's registers. -/
theorem runPolls_silent_append (ps qs : List Poll) (s : State) (last : Nat) (hfault : s.modelFault = none)
    (hstate : s.rxState = .accumulating) (hlast : s.rxLastMs = some last) (hsource : s.source = [])
    (hps : ∀ p ∈ ps, p.rst = false ∧ p.arrivals = [] ∧ last ≤ p.nowMs ∧ p.nowMs ≤ last + s.params.quietMs) :
    ∃ t, runPolls (ps ++ qs) s = runPolls qs t ∧ SameRegs s t ∧ t.modelFault = none ∧ t.source = [] := by
  induction ps generalizing s with
  | nil => exact ⟨s, rfl, ⟨rfl, rfl, rfl, rfl, rfl, rfl⟩, hfault, hsource⟩
  | cons p ps ih =>
    obtain ⟨⟨hrst, harr, hclock, hquiet⟩, hps⟩ := List.forall_mem_cons.mp hps
    obtain ⟨u, hu, hsame, hufault, husource⟩ :=
      runPoll_silent (p := p) (s := { s with script := (ps ++ qs).map EnvEvent.poll ++ s.script })
        hstate hlast hsource hrst harr hclock hquiet
    have hsame' : SameRegs s { u with script := s.script } :=
      ⟨hsame.params, hsame.rxState, hsame.rxLen, hsame.rxBuf, hsame.rxLastMs, hsame.rxOverflow⟩
    obtain ⟨t, ht, hregs, htfault, htsource⟩ := ih { u with script := s.script } (hufault.trans hfault)
      (hsame'.rxState.trans hstate) (hsame'.rxLastMs.trans hlast) husource (by rwa [hsame'.params])
    exact ⟨t, by rw [List.cons_append, runPolls_cons p _ s hfault, hu]; exact ht, hsame'.trans hregs, htfault, htsource⟩

/-- Settles O43: the silent steps keep the receiver's registers, and the first later one is STEP-COMPLETE. -/
theorem silenceEndsFrameAtFirstLaterStep : Obligations.SilenceEndsFrameAtFirstLaterStep := by
  intro ps q s last hfault hstate hlast hsource hps hrst harr hlate
  have hsilent := fun qs => runPolls_silent_append ps qs s last hfault hstate hlast hsource hps
  constructor
  · obtain ⟨t, ht, hregs, -, -⟩ := hsilent []
    rw [List.append_nil, runPolls_nil] at ht
    exact ⟨t, ht, hregs.rxState.trans hstate, hregs.rxLen, hregs.rxBuf⟩
  · obtain ⟨t, ht, hregs, htfault, htsource⟩ := hsilent [q]
    have hend := runPoll_ends (p := q) (s := { t with script := t.script }) (hregs.rxState.trans hstate)
      (hregs.rxLastMs.trans hlast) htsource hrst harr (by rw [hregs.params]; exact hlate)
    rw [ht, runPolls_cons q [] t htfault]
    simp only [List.map_nil, List.nil_append, hend, runPolls_nil]
    exact ⟨_, rfl, rfl, by simp [hregs.rxLen], by simp [hregs.rxBuf], by simp [hregs.rxOverflow]⟩

end Sys2Proof
end

