-- ==== Sys2Proof/Proofs/Outputs.lean ====
section
/-! PROOFS. The host's reads of the buffer and of the frame output (10_state.md R27, R33), the exact angle and its
float64 view (42_position_decoder.md R195, R200), and what DECODE ignores and leaves alone (R197, R201). -/
namespace Sys2Proof

open Machine

/-! ### the buffer and the frame output -/

/-- In a state that meets the invariants every cell below `rx_len` reads. -/
theorem FrInv.memRead_of_lt {s : State} (hs : FrInv s) {i : Nat} (hi : i < s.rxLen) :
    ∃ v, Memory.get i s.rxBuf = some v ∧ memRead i s = .value v := by
  obtain ⟨v, hv⟩ := Option.isSome_iff_exists.mp ((hs.cells i).mpr hi)
  exact ⟨v, hv, (memRead_eq_value i s v).mpr ⟨hi.trans_le hs.lenCap, hv⟩⟩

theorem memRead_noSuchCell (i : Nat) (s : State) (h : s.params.rxCap ≤ i) : memRead i s = .refused (.noSuchCell i) :=
  if_pos h

theorem memRead_unwritten (i : Nat) (s : State) (hi : i < s.params.rxCap) (h : Memory.get i s.rxBuf = none) :
    memRead i s = .refused (.unwrittenBufferCell i) := by
  rw [memRead, if_neg (Nat.not_le.mpr hi), h]

/-- The bytes of the cells below `rx_len`; a cell without a value counts as 0. -/
def storedBytes (s : State) : List Byte := (List.range s.rxLen).map fun i => (Memory.get i s.rxBuf).getD 0

@[simp] theorem storedBytes_length (s : State) : (storedBytes s).length = s.rxLen := by
  simp [storedBytes]

theorem FrInv.storedBytes_getElem? {s : State} (hs : FrInv s) {i : Nat} (hi : i < s.rxLen) :
    (storedBytes s)[i]? = Memory.get i s.rxBuf := by
  obtain ⟨v, hv, -⟩ := hs.memRead_of_lt hi
  simp [storedBytes, hi, hv]

/-- In Complete the frame output is the stored bytes. -/
theorem FrInv.readFrame_of_complete {s : State} (hs : FrInv s) (hstate : s.rxState = .complete) :
    readFrame s = .value (storedBytes s) := by
  rw [readFrame, if_pos hstate]
  refine readCells_eq_value s s.rxLen 0 _ (storedBytes_length s) fun k hk => ?_
  have hlt : k < s.rxLen := storedBytes_length s ▸ hk
  obtain ⟨v, hv, hread⟩ := hs.memRead_of_lt hlt
  have hbyte : some (storedBytes s)[k] = some v := by
    rw [← List.getElem?_eq_getElem hk, hs.storedBytes_getElem? hlt, hv]
  rw [Nat.zero_add, hread, Option.some.inj hbyte]

/-- Settles O44: in Complete every cell of the frame reads; in the other states the output is refused. -/
theorem frameOutputOnlyWhenComplete : Obligations.FrameOutputOnlyWhenComplete := by
  intro s hs
  refine ⟨fun hstate => ?_, fun hstate => ?_⟩
  · have hread := hs.fr.readFrame_of_complete hstate
    refine ⟨storedBytes s, hread, storedBytes_length s, fun i hi => hs.fr.storedBytes_getElem? hi, ?_⟩
    simp only [runEvent, runRead, hread, Read.asStep]
  · simp only [runEvent, runRead, readFrame, if_neg hstate, Read.asStep]

/-- Settles O45: exactly the cells below `rx_len` have a value, and `rx_len` is at most RX_CAP. -/
theorem cellReadsByIndex : Obligations.CellReadsByIndex := by
  intro s i hs
  refine ⟨fun hi => ?_, fun hlen hcap => ?_, fun hcap => ?_⟩
  · obtain ⟨v, -, hread⟩ := hs.fr.memRead_of_lt hi
    exact ⟨v, hread, by simp only [runEvent, runRead, hread, Read.asStep]⟩
  · have hnone : Memory.get i s.rxBuf = none := by
      rw [← Option.not_isSome_iff_eq_none, hs.fr.cells]
      exact Nat.not_lt.mpr hlen
    simp only [runEvent, runRead, memRead_unwritten i s hcap hnone, Read.asStep]
  · simp only [runEvent, runRead, memRead_noSuchCell i s hcap, Read.asStep]

/-! ### the angle -/

/-- Settles O48: the magnitude is 65536 times its upper half plus its lower half. -/
theorem magnitudeIsTurnsAndFraction : Obligations.MagnitudeIsTurnsAndFraction := by
  intro neg mag
  have hsplit : mag.toNat = (mag.extractLsb' 16 16).toNat * 65536 + (mag.extractLsb' 0 16).toNat := by
    have := mag.isLt
    simp only [BitVec.extractLsb'_toNat, Nat.shiftRight_eq_div_pow]
    omega
  rw [angleDegrees_readingOf_eq_turns, hsplit]
  push_cast
  ring

/-- The value of a pattern put together from its sign bit, a normal exponent field and a fraction. -/
theorem float64Value_of_fields (neg : Bool) (e f : Nat) (he0 : e ≠ 0) (he : e < 2 ^ 11) (hf : f < 2 ^ 52) :
    float64Value (BitVec.ofNat 64 ((if neg then 2 ^ 63 else 0) + e * 2 ^ 52 + f)) =
      (if neg then -1 else 1) * ((2 ^ 52 + f : Nat) : Rat) * 2 ^ ((e : Int) - 1075) := by
  have hN : (BitVec.ofNat 64 ((if neg then 2 ^ 63 else 0) + e * 2 ^ 52 + f)).toNat =
      (if neg then 2 ^ 63 else 0) + e * 2 ^ 52 + f := by
    rw [BitVec.toNat_ofNat, Nat.mod_eq_of_lt]
    split <;> omega
  have hexp : ((if neg then 2 ^ 63 else 0) + e * 2 ^ 52 + f) / 2 ^ 52 % 2 ^ 11 = e := by
    split <;> omega
  have hfrac : ((if neg then 2 ^ 63 else 0) + e * 2 ^ 52 + f) % 2 ^ 52 = f := by
    split <;> omega
  have hsign : ((if neg then 2 ^ 63 else 0) + e * 2 ^ 52 + f < 2 ^ 63) ↔ neg = false := by
    cases neg <;> simp <;> omega
  simp only [float64Value, hN, hexp, hfrac, hsign, if_neg he0]
  cases neg <;> rfl

/-- The leading one and the shifted fraction of a number with leading bit `k` are the number, shifted to 53 bits. -/
theorem leadingOne_add_fraction (n k : Nat) (hk : k ≤ 52) (hlow : 2 ^ k ≤ n) :
    2 ^ 52 + (n - 2 ^ k) * 2 ^ (52 - k) = n * 2 ^ (52 - k) := by
  have hone : 2 ^ k * 2 ^ (52 - k) = 2 ^ 52 := by rw [← pow_add, Nat.add_sub_cancel' hk]
  rw [Nat.sub_mul, hone, Nat.add_sub_cancel' (hone ▸ Nat.mul_le_mul_right _ hlow)]

/-- The binary64 pattern of a scaled number below 2^53 stands for exactly that number of 2^-13 units. -/
theorem float64Value_float64OfScaled (neg : Bool) (n : Nat) (hn : n < 2 ^ 53) :
    float64Value (float64OfScaled neg n) = (if neg then -1 else 1) * (n : Rat) / 2 ^ 13 := by
  by_cases h0 : n = 0
  · subst h0
    cases neg <;> simp [float64OfScaled, float64Value]
  have hlow : 2 ^ n.log2 ≤ n := Nat.log2_self_le h0
  have hhigh : n < 2 ^ (n.log2 + 1) := Nat.lt_log2_self
  have hk : n.log2 ≤ 52 := Nat.le_of_lt_succ ((Nat.log2_lt h0).mpr hn)
  have hsum := leadingOne_add_fraction n n.log2 hk hlow
  have hfrac : (n - 2 ^ n.log2) * 2 ^ (52 - n.log2) < 2 ^ 52 := by
    have : n * 2 ^ (52 - n.log2) < 2 ^ (n.log2 + 1) * 2 ^ (52 - n.log2) :=
      Nat.mul_lt_mul_of_pos_right hhigh (by positivity)
    rw [← pow_add, Nat.add_right_comm, Nat.add_sub_cancel' hk] at this
    omega
  have hscale : (2 : Rat) ^ (52 - n.log2) * 2 ^ (((n.log2 + 1010 : Nat) : Int) - 1075) = (2 ^ 13)⁻¹ := by
    have hexp : ((52 - n.log2 : Nat) : Int) + (((n.log2 + 1010 : Nat) : Int) - 1075) = -13 := by omega
    rw [← zpow_natCast, ← zpow_add₀ two_ne_zero, hexp]
    norm_num
  calc float64Value (float64OfScaled neg n)
      = (if neg then -1 else 1) * ((n * 2 ^ (52 - n.log2) : Nat) : Rat) *
          2 ^ (((n.log2 + 1010 : Nat) : Int) - 1075) := by
        rw [← hsum, ← float64Value_of_fields neg _ _ (by omega) (by omega) hfrac]
        simp only [float64OfScaled, if_neg h0]
    _ = (if neg then -1 else 1) * (n : Rat) / 2 ^ 13 := by
        push_cast
        rw [div_eq_mul_inv, ← hscale]
        push_cast
        ring

/-- Settles O49: 45 times a 32-bit magnitude is below 2^53, and a zero magnitude is one of two patterns. -/
theorem floatViewIsExact : Obligations.FloatViewIsExact := by
  refine ⟨fun neg mag => ?_, by decide, by decide⟩
  have hn : mag.toNat * 45 < 2 ^ 53 := by
    have := mag.isLt
    omega
  rw [angleDegrees_readingOf]
  refine (float64Value_float64OfScaled neg _ hn).trans ?_
  push_cast
  rfl

/-! ### what DECODE ignores -/

theorem rposFields_append (f rest : List Byte) (h : f.length = 7) : rposFields (f ++ rest) = rposFields f := by
  match f, h with
  | [_, _, _, _, _, _, _], _ => rfl

/-- Settles O51: DECODE reads the first seven bytes, and of the sign byte only whether it is zero. -/
theorem decodeIgnoresTrailingBytes : Obligations.DecodeIgnoresTrailingBytes := by
  refine ⟨fun f rest expected hlen => ?_, fun b0 b1 g h m3 m2 m1 m0 expected hg hh => ?_, fun f s overflow => ?_⟩
  · have hshort : ¬ (f ++ rest).length < Config.posMinLen := by simp [Config.posMinLen, hlen]
    have hshort' : ¬ f.length < Config.posMinLen := by simp [Config.posMinLen, hlen]
    rw [pdDecode, pdDecode, if_neg hshort, if_neg hshort', rposFields_append f rest hlen,
      List.getElem?_append_left (by omega), List.getElem?_append_left (by omega)]
  · have hsign : pdNegOf g = pdNegOf h := by rw [(pdNegOf_iff g).mpr hg, (pdNegOf_iff h).mpr hh]
    simp only [pdDecode, rposFields, hsign]
    rfl
  · exact ⟨_, _, exec_posReply f s, exec_posReply f _, rfl, rfl⟩

/-- Settles O53: DECODE's next state is a `drivePd`, which writes the decoder's ports only. -/
theorem decodeLeavesOtherUnitsAlone : Obligations.DecodeLeavesOtherUnitsAlone := by
  intro f s t h
  obtain rfl := Host.Outcome.next.inj ((exec_posReply f s).symm.trans h)
  exact ⟨⟨rfl, rfl, rfl⟩, ⟨rfl, rfl, rfl, fun _ => rfl, rfl, rfl, rfl, rfl, rfl⟩, ⟨rfl, rfl, rfl⟩, rfl⟩

/-- Settles O54: RDPOS is an abbreviation, and a list whose byte 0 is another address fails the test of R191. -/
theorem replyFromAnotherAddressIsNoReading : Obligations.ReplyFromAnotherAddressIsNoReading := by
  intro a s reply
  refine ⟨rfl, fun haddr => ?_⟩
  obtain ⟨reason, hreason⟩ := pdDecode_noReading s.params.expectedAddr (mask 8 a :: reply)
    (.inr (.inl (by simpa using haddr)))
  exact ⟨_, exec_posReply _ s, State.pdValid_of_noReading _ reason hreason⟩

end Sys2Proof
end

