-- ==== Sys2Proof/Proofs/Steps.lean ====
section
/-! PROOFS. One step of the machine: the environment's next action, scripted, given by bytes, or free (60_exceptions.md
R225, log entries 1, 2, 16, 17). -/
namespace Sys2Proof

open Machine

/-- Settles O55: the action `word` decodes its bytes and runs what they say. -/
theorem stepRunsDecodedInstruction : Obligations.StepRunsDecodedInstruction := by
  intro s bs rest hfault hscript
  have hstep := step_scripted s (.word bs) rest hscript hfault
  refine ⟨fun i hi => ?_, fun e he => ?_⟩
  · simp only [hstep, runEvent, hi]
  · simp only [hstep, runEvent, he]

theorem decodeTableWord_eq_some (nbits w : Nat) (i : Instr) (h : decodeTableWord nbits w = some i) :
    decode 0x01 (tableBytes nbits w) = .ok i := by
  unfold decodeTableWord at h
  split at h
  next j hj => exact hj.trans (congrArg Except.ok (Option.some.inj h))
  next => cases h

/-- Settles O57: the placed word is the next action, and taking it off the script gives the state before. -/
theorem placedTableWordRunsNext : Obligations.PlacedTableWordRunsNext := by
  intro s nbits w i hfault haddr h
  have hdecode : decode s.params.expectedAddr (tableBytes nbits w) = .ok i := by
    rw [haddr]
    exact decodeTableWord_eq_some nbits w i h
  exact (stepRunsDecodedInstruction (s.withFetchWord nbits w) (tableBytes nbits w) s.script hfault rfl).1 i hdecode

/-- A read's answer does not depend on the script. -/
theorem memRead_with_script (i : Nat) (es : List EnvEvent) (s : State) :
    memRead i { s with script := es } = memRead i s := rfl

theorem readCells_with_script (es : List EnvEvent) (s : State) (n : Nat) :
    ∀ i, readCells { s with script := es } i n = readCells s i n := by
  induction n with
  | zero => exact fun _ => rfl
  | succ n ih =>
    intro i
    simp only [readCells, memRead_with_script, ih]

theorem readFrame_with_script (es : List EnvEvent) (s : State) :
    readFrame { s with script := es } = readFrame s := by
  simp only [readFrame, readCells_with_script]

/-- A read of a part of the reading, by the output `pd_valid`. -/
theorem readReading_asStep (s u : State) :
    (readReading s).asStep u = if s.pdValid then .next u else .refused .noReading := by
  unfold readReading State.pdValid
  cases s.pd <;> rfl

/-- Settles O56: the step is the action's own outcome in the state with the action off the script, on which no read
depends. -/
theorem stepRunsScriptedAction : Obligations.StepRunsScriptedAction := by
  rintro s u rest hfault rfl
  have hstep := fun e hscript => step_scripted s e rest hscript hfault
  refine ⟨fun i hi hs => ?_, fun f hs => hstep _ hs, fun f hf hs => ?_, fun i hi hs => ?_, fun e he hs => ?_,
    fun p hs => hstep _ hs, fun r hs => ⟨hstep _ hs, fun t ht => runRead_next r _ t ((hstep _ hs).symm.trans ht)⟩,
    fun i v hv hs => ?_, fun i e he hs => ?_, fun f hf hs => ?_, fun e he hs => ?_, fun r hr hs => ?_, fun hs => ?_⟩
  · simp [hstep _ hs, runEvent, hi]
  · simp [hstep _ hs, runEvent, readFrame_with_script, hf]
  · simp [hstep _ hs, runEvent, hi]
  · simp [hstep _ hs, runEvent, readFrame_with_script, he]
  · simp [hstep _ hs, runEvent, runRead, memRead_with_script, hv, Read.asStep]
  · simp [hstep _ hs, runEvent, runRead, memRead_with_script, he, Read.asStep]
  · simp [hstep _ hs, runEvent, runRead, readFrame_with_script, hf, Read.asStep]
  · simp [hstep _ hs, runEvent, runRead, readFrame_with_script, he, Read.asStep]
  · rw [hstep _ hs]
    rcases hr with rfl | rfl | rfl <;> exact readReading_asStep _ _
  · simp [step, stepOnce, hfault, State.nextEvent, State.afterFetch, hs]

end Sys2Proof
end
